-- ==== Sys2Proof/Word.lean ====
section
/-! DEFINITION. The words of FCA: registers and command words are 32 bits wide, the frame and the energy
registers 64 bits, frame bytes 8 bits (00_scope.md R8, 10_state.md R22). -/

namespace Sys2Proof

/-- A 32-bit register or command word (10_state.md R22). -/
abbrev Word := BitVec 32

/-- A 64-bit value: the frame `FR` or a LO/HI register pair (00_scope.md R13). -/
abbrev DWord := BitVec 64

/-- A frame byte (00_scope.md R8). -/
abbrev Byte := BitVec 8

/-- The 56-bit payload `P` of a frame (30_encoding.md R87). -/
abbrev Payload := BitVec 56

/-- A byte offset in the 4 KiB register space, 0x000..0xFFF (20_memory.md R60). -/
abbrev Offset := BitVec 12

/-- The 6-bit ARG field of a command word (30_encoding.md R80). -/
abbrev Arg := BitVec 6

end Sys2Proof
end

