-- ==== Sys2Proof/Syntax.lean ====
section
/-! DEFINITION. The command set: one constructor per row of the opcode map (30_encoding.md R82). -/

namespace Sys2Proof

/-- The 16 commands of FCA (30_encoding.md R82). A constructor's argument is the command word's ARG field,
at every value the field can hold; which values are legal is `Instr.wellFormed` (R83). -/
inductive Instr where
  /-- NOP (40_codec.md R127). -/
  | nop
  /-- ENC_ELEC (40_codec.md R113). -/
  | encElec
  /-- ENC_MOTION (40_codec.md R116). -/
  | encMotion
  /-- ENC_SENSOR (40_codec.md R119). -/
  | encSensor
  /-- DEC (40_codec.md R120). -/
  | dec
  /-- SM_ENC N (40_codec.md R125). -/
  | smEnc (n : Arg)
  /-- SM_DEC N (40_codec.md R126). -/
  | smDec (n : Arg)
  /-- DELTA13 (41_accumulator.md R145). -/
  | delta13
  /-- DELTA32 (41_accumulator.md R146). -/
  | delta32
  /-- PULSE2M (41_accumulator.md R147). -/
  | pulse2m
  /-- ACC_MOTION (41_accumulator.md R150). -/
  | accMotion
  /-- DIST_UPD (41_accumulator.md R153). -/
  | distUpd
  /-- TRIP_RESET k (41_accumulator.md R156). -/
  | tripReset (k : Arg)
  /-- ODO_FOLD (41_accumulator.md R157). -/
  | odoFold
  /-- ACC_ELEC (41_accumulator.md R160). -/
  | accElec
  /-- E_FOLD (41_accumulator.md R170). -/
  | eFold
deriving DecidableEq, Repr

end Sys2Proof
end

