-- ==== Sys2Proof/WellFormed.lean ====
section
/-! DEFINITION. ARG legality (30_encoding.md R83): which terms of `Instr` are commands. -/

namespace Sys2Proof

/-- A field width N of SM_ENC and SM_DEC is legal: 2 ≤ N ≤ 32 (30_encoding.md R83). -/
def widthLegal (n : Arg) : Bool := decide (2 ≤ n.toNat ∧ n.toNat ≤ 32)

/-- A counter index k of TRIP_RESET is legal: k ≤ 2 (30_encoding.md R83). -/
def tripLegal (k : Arg) : Bool := decide (k.toNat ≤ 2)

/-- The term is a legal command (30_encoding.md R83). The commands without an argument carry none, so
"every other opcode needs arg = 0" is a check of the decoder. -/
def Instr.wellFormed : Instr → Bool
  | .smEnc n => widthLegal n
  | .smDec n => widthLegal n
  | .tripReset k => tripLegal k
  | .nop | .encElec | .encMotion | .encSensor | .dec
  | .delta13 | .delta32 | .pulse2m
  | .accMotion | .distUpd | .odoFold | .accElec | .eFold => true

end Sys2Proof
end

