-- ==== Sys2Proof/Decode.lean ====
section
/-! DEFINITION. The command word, format C (30_encoding.md R80): its decoder, total on every 32-bit word and
rejecting by name, and its encoder. A command word reaches the block as one 32-bit bus word with no byte
lanes (20_memory.md R63), so the decoder reads a word, not a list of bytes. -/

namespace Sys2Proof

/-- Why a command word is illegal (30_encoding.md R88). -/
inductive Illegal where
  /-- `z ≠ 0`: a bit of 31:14 is set. -/
  | zNonzero
  /-- `op` is a reserved opcode, 0x07..0x0F or 0x19..0xFF (30_encoding.md R89). -/
  | reservedOpcode (op : BitVec 8)
  /-- `arg` breaks 30_encoding.md R83 for the opcode `op`. -/
  | badArg (op : BitVec 8) (arg : Arg)
deriving DecidableEq, Repr

/-- `op = w[7:0]` (30_encoding.md R81). -/
def opField (w : Word) : BitVec 8 := w.extractLsb' 0 8

/-- `arg = w[13:8]` (30_encoding.md R81). -/
def argField (w : Word) : Arg := w.extractLsb' 8 6

/-- `z = w[31:14]` (30_encoding.md R81). -/
def zField (w : Word) : BitVec 18 := w.extractLsb' 14 18

/-- The opcode map read by OP (30_encoding.md R82): the command an opcode and an ARG field name, before the
check of R83, or none for a reserved opcode (R89). -/
def opcodeMap (op : BitVec 8) (arg : Arg) : Option Instr :=
  match op.toNat with
  | 0x00 => some .nop
  | 0x01 => some .encElec
  | 0x02 => some .encMotion
  | 0x03 => some .encSensor
  | 0x04 => some .dec
  | 0x05 => some (.smEnc arg)
  | 0x06 => some (.smDec arg)
  | 0x10 => some .delta13
  | 0x11 => some .delta32
  | 0x12 => some .pulse2m
  | 0x13 => some .accMotion
  | 0x14 => some .distUpd
  | 0x15 => some (.tripReset arg)
  | 0x16 => some .odoFold
  | 0x17 => some .accElec
  | 0x18 => some .eFold
  | _ => none

/-- The OP column of the opcode map (30_encoding.md R82). -/
def Instr.op : Instr → BitVec 8
  | .nop => 0x00
  | .encElec => 0x01
  | .encMotion => 0x02
  | .encSensor => 0x03
  | .dec => 0x04
  | .smEnc _ => 0x05
  | .smDec _ => 0x06
  | .delta13 => 0x10
  | .delta32 => 0x11
  | .pulse2m => 0x12
  | .accMotion => 0x13
  | .distUpd => 0x14
  | .tripReset _ => 0x15
  | .odoFold => 0x16
  | .accElec => 0x17
  | .eFold => 0x18

/-- The ARG column of the opcode map (30_encoding.md R82): N, k, or 0. -/
def Instr.arg : Instr → Arg
  | .smEnc n => n
  | .smDec n => n
  | .tripReset k => k
  | .nop | .encElec | .encMotion | .encSensor | .dec
  | .delta13 | .delta32 | .pulse2m
  | .accMotion | .distUpd | .odoFold | .accElec | .eFold => 0

/-- The command decoder (30_encoding.md R88): a word is legal when Z is 0, OP is in the map, and ARG is the
one the command carries and obeys R83. -/
def decode (w : Word) : Except Illegal Instr :=
  if zField w ≠ 0 then .error .zNonzero
  else match opcodeMap (opField w) (argField w) with
    | none => .error (.reservedOpcode (opField w))
    | some i =>
      if i.arg = argField w ∧ i.wellFormed then .ok i
      else .error (.badArg (opField w) (argField w))

/-- Format C laid out (30_encoding.md R80): OP in bits 7:0, ARG in bits 13:8, 0 above. -/
def formatC (op : BitVec 8) (arg : Arg) : Word :=
  op.setWidth 32 ||| (arg.setWidth 32 <<< 8)

/-- The word of a command, `word(M)` of 30_encoding.md R97. -/
def encode (i : Instr) : Word := formatC i.op i.arg

/-- The host's view of the decoder: the instruction of the word whose bits are `w`, numbered as the opcode
table numbers them (bit 0 least significant), every bit from `nbits` on being 0. -/
def decodeTableWord (nbits w : Nat) : Option Instr :=
  (decode (BitVec.ofNat 32 (w % 2 ^ nbits))).toOption

end Sys2Proof
end

