-- ==== Sys2Proof/Machine/State.lean ====
section
/-! DEFINITION. The state of FCA as plain data: every register of the map 10_state.md R22, each with the bits
the spec gives it ("bits used"); the host's side of the bus; the reasons a step can stop; the state after
reset (10_state.md R55). Bits the spec hardwires (reserved bits, ID, reads of CMD) have no storage: the one
read operation supplies them (Machine/Ops.lean). -/

namespace Sys2Proof.Machine

/-- Why the block stops with a fault: never. FCA "raises no synchronous exception and no trap"
(60_exceptions.md R180) and "never halts and never becomes stuck" (R194), so there is no constructor. -/
inductive Fault where
deriving DecidableEq, Repr

/-- Why the model has no step. -/
inductive Refusal where
  /-- Raised by an arm of `exec` for a command without a meaning yet; no arm raises it. Safe. -/
  | notModelled (mnemonic : String)
  /-- Raised by a host access of 8 or 16 bits, which the spec does not define: "A model refuses it"
  (20_memory.md R61). Safe. -/
  | subWordAccess
  /-- Raised by a 32-bit host access whose offset is not a multiple of 4: "a model refuses it"
  (20_memory.md R62). Safe. -/
  | misalignedAccess
deriving DecidableEq, Repr

/-- The width of a host access (20_memory.md R61): 32 bits is the only defined one. -/
inductive AccessWidth where
  | bits8
  | bits16
  | bits32
deriving DecidableEq, Repr

/-- What the outside world does to the block, one at a time (20_memory.md R70). -/
inductive HostEvent where
  /-- A host read of a register offset: `MemRead` (00_scope.md R14). -/
  | read (width : AccessWidth) (off : Offset)
  /-- A host write of a register offset: `MemWrite` (00_scope.md R14). -/
  | write (width : AccessWidth) (off : Offset) (v : Word)
  /-- The platform asserts reset, between host accesses (70_reset_and_hazards.md R200). -/
  | reset
deriving DecidableEq, Repr

/-- The fields of STATUS (10_state.md R24). Bits 7:6 and 31:16 are hardwired 0 and have no storage. -/
structure Status where
  /-- Bit 0, transient: the frame's byte 0 was not 1, 2 or 3. -/
  kindErr  : Bool
  /-- Bit 1, transient: at least one field value was saturated. -/
  sat      : Bool
  /-- Bit 2, transient: the command word was illegal. -/
  cmdErr   : Bool
  /-- Bit 3, sticky: PULSE_REF and M_TS_REF hold a valid reference. -/
  mref     : Bool
  /-- Bit 4, sticky: E_TS_REF holds a valid reference. -/
  eref     : Bool
  /-- Bit 5, transient: E_FOLD found the distance not above MIN_TRAVEL_M. -/
  foldSkip : Bool
  /-- Bits 15:8: byte 0 of the frame most recently decoded (10_state.md R26). -/
  lastKind : Byte
deriving DecidableEq, Repr

/-- The machine: the registers of 10_state.md R22 in its order, then the host's side of the bus.
A 64-bit pair is stored once; its halves are views (00_scope.md R13). -/
structure State where
  /-- STATUS (10_state.md R24). -/
  status     : Status
  /-- DEC_ERR_CNT (10_state.md R28). -/
  decErrCnt  : Word
  /-- CFG[0], CURR_INV (10_state.md R29). -/
  currInv    : Bool
  /-- FRAME_LO (10_state.md R30). -/
  frameLo    : Word
  /-- FRAME_HI (10_state.md R30). -/
  frameHi    : Word
  /-- ARG_A (10_state.md R31). -/
  argA       : Word
  /-- ARG_B (10_state.md R31). -/
  argB       : Word
  /-- RESULT (10_state.md R31). -/
  result     : Word
  /-- E_TS (10_state.md R32). -/
  eTs        : Word
  /-- E_VOLT (10_state.md R32). -/
  eVolt      : Word
  /-- E_CURR (10_state.md R32). -/
  eCurr      : Word
  /-- E_FAULTS (10_state.md R32). -/
  eFaults    : Word
  /-- E_SEQ (10_state.md R32). -/
  eSeq       : Word
  /-- M_TS (10_state.md R33). -/
  mTs        : Word
  /-- M_PULSES (10_state.md R33). -/
  mPulses    : Word
  /-- M_SEQ (10_state.md R33). -/
  mSeq       : Word
  /-- S_T0 (10_state.md R34). -/
  sT0        : Word
  /-- S_T1 (10_state.md R34). -/
  sT1        : Word
  /-- S_T2 (10_state.md R34). -/
  sT2        : Word
  /-- PPR[15:0] (10_state.md R36). -/
  ppr        : BitVec 16
  /-- MMPR[15:0] (10_state.md R36). -/
  mmpr       : BitVec 16
  /-- MIN_TRAVEL_M (10_state.md R37). -/
  minTravelM : Word
  /-- ODO_BASE (10_state.md R38). -/
  odoBase    : Word
  /-- ODO_RUN (10_state.md R39). -/
  odoRun     : Word
  /-- PULSE_REF (10_state.md R40). -/
  pulseRef   : Word
  /-- M_TS_REF[12:0] (10_state.md R40). -/
  mTsRef     : BitVec 13
  /-- TRIP0 (10_state.md R41). -/
  trip0      : Word
  /-- TRIP1 (10_state.md R41). -/
  trip1      : Word
  /-- TRIP2 (10_state.md R41). -/
  trip2      : Word
  /-- DIST0 (10_state.md R42). -/
  dist0      : Word
  /-- DIST1 (10_state.md R42). -/
  dist1      : Word
  /-- DIST2 (10_state.md R42). -/
  dist2      : Word
  /-- SPEED (10_state.md R43). -/
  speed      : Word
  /-- E_TS_REF[12:0] (10_state.md R44). -/
  eTsRef     : BitVec 13
  /-- EACC_C (10_state.md R45). -/
  eaccC      : DWord
  /-- EACC_R (10_state.md R45). -/
  eaccR      : DWord
  /-- ETOT_C (10_state.md R46). -/
  etotC      : DWord
  /-- ETOT_R (10_state.md R46). -/
  etotR      : DWord
  /-- NORM (10_state.md R47). -/
  norm       : Word
  /-- The host events still to come, the next one first. The model's own field (log entry 1). -/
  pending    : List HostEvent
  /-- What host reads have returned, oldest first. The model's own field (log entry 2). -/
  replies    : List Word
deriving DecidableEq, Repr

/-- STATUS after reset: 0x00000000 (10_state.md R55). -/
def Status.reset : Status :=
  { kindErr := false, sat := false, cmdErr := false, mref := false, eref := false,
    foldSkip := false, lastKind := 0 }

/-- The block after reset (10_state.md R55, R56): every register 0 but PPR = MMPR = 1 (and the constant ID).
No event is pending and no read has been answered (log entries 1 and 2). -/
def State.reset : State :=
  { status := Status.reset
    decErrCnt := 0, currInv := false
    frameLo := 0, frameHi := 0, argA := 0, argB := 0, result := 0
    eTs := 0, eVolt := 0, eCurr := 0, eFaults := 0, eSeq := 0
    mTs := 0, mPulses := 0, mSeq := 0
    sT0 := 0, sT1 := 0, sT2 := 0
    ppr := 1, mmpr := 1, minTravelM := 0
    odoBase := 0, odoRun := 0, pulseRef := 0, mTsRef := 0
    trip0 := 0, trip1 := 0, trip2 := 0
    dist0 := 0, dist1 := 0, dist2 := 0, speed := 0
    eTsRef := 0, eaccC := 0, eaccR := 0, etotC := 0, etotR := 0
    norm := 0
    pending := [], replies := [] }

end Sys2Proof.Machine
end

