-- ==== Sys2Proof/Machine/Flags.lean ====
section
/-! DEFINITION. STATUS: the register word and every way a command changes it (10_state.md R24 to R27). -/

namespace Sys2Proof.Machine

/-- STATUS as the host reads it (10_state.md R24): bits 31:16 and 7:6 read 0. -/
def Status.word (st : Status) : Word :=
  0#16 ++ st.lastKind ++ 0#2 ++ BitVec.ofBool st.foldSkip ++ BitVec.ofBool st.eref ++
    BitVec.ofBool st.mref ++ BitVec.ofBool st.cmdErr ++ BitVec.ofBool st.sat ++
    BitVec.ofBool st.kindErr

/-- Bits 0, 1, 2 and 5 to 0, the others held (10_state.md R25). -/
def Status.clearTransient (st : Status) : Status :=
  { st with kindErr := false, sat := false, cmdErr := false, foldSkip := false }

/-- `if c: flag SAT` (40_codec.md R113, R119, R125). -/
def Status.flagSatIf (st : Status) (c : Bool) : Status := { st with sat := st.sat || c }

/-- `flag KIND_ERR` (40_codec.md R124). -/
def Status.flagKindErr (st : Status) : Status := { st with kindErr := true }

/-- `flag CMD_ERR` (30_encoding.md R88). -/
def Status.flagCmdErr (st : Status) : Status := { st with cmdErr := true }

/-- `flag FOLD_SKIP` (41_accumulator.md R170). -/
def Status.flagFoldSkip (st : Status) : Status := { st with foldSkip := true }

/-- `STATUS.LAST_KIND <- kind` (40_codec.md R120). -/
def Status.setLastKind (st : Status) (kind : Byte) : Status := { st with lastKind := kind }

/-- `STATUS.MREF <- 1` (41_accumulator.md R150). -/
def Status.setMref (st : Status) : Status := { st with mref := true }

/-- `STATUS.EREF <- 1` (41_accumulator.md R160). -/
def Status.setEref (st : Status) : Status := { st with eref := true }

/-- STATUS replaced, nothing else. -/
def State.setStatus (s : State) (st : Status) : State := { s with status := st }

/-- What every command write does first (10_state.md R25). -/
def State.beginCommand (s : State) : State := s.setStatus s.status.clearTransient

end Sys2Proof.Machine
end

