-- ==== Sys2Proof/Machine/Operands.lean ====
section
/-! DEFINITION. The pure arithmetic the commands share: reductions (00_scope.md R12), sign-magnitude
(40_codec.md R110, R111), field packing (30_encoding.md R90 to R94), wraparound-safe deltas
(41_accumulator.md R140, R141), pulses to distance and speed (R142 to R144, R151). -/

namespace Sys2Proof.Machine

/-- `u32(x) = wrap_32(x)` as a word, for any integer x (00_scope.md R12). -/
def u32 (x : Int) : Word := BitVec.ofInt 32 x

/-- `s32(w)`: the two's complement reading of a word (00_scope.md R12). -/
def s32 (w : Word) : Int := w.toInt

/-- `tdiv(x, y)`: the quotient truncated toward zero (00_scope.md R12). -/
def tdiv (x y : Int) : Int := x.tdiv y

/-- `clamp(x, lo, hi)` (41_accumulator.md R170). -/
def clamp (x lo hi : Int) : Int := max lo (min x hi)

/-! ### Sign-magnitude (40_codec.md R110, R111) -/

/-- The largest magnitude of an N-bit field, `2^(N-1) - 1` (40_codec.md R110). -/
def maxMagnitude (n : Nat) : Nat := 2 ^ (n - 1) - 1

/-- The pattern `b` of `smenc(v, N)`: sign in bit N-1, saturated magnitude below (40_codec.md R110). -/
def smencPattern (v : Int) (n : Nat) : Nat :=
  let m := min v.natAbs (maxMagnitude n)
  if v < 0 then 2 ^ (n - 1) + m else m

/-- The saturation indication of `smenc(v, N)` (40_codec.md R110). -/
def smencSat (v : Int) (n : Nat) : Bool := decide (maxMagnitude n < v.natAbs)

/-- `smdec(b, N)`: minus the magnitude bits when bit N-1 is set, else the magnitude bits
(40_codec.md R111). -/
def smdec (b : Nat) (n : Nat) : Int :=
  let m : Nat := b % 2 ^ (n - 1)
  if b.testBit (n - 1) then -(m : Int) else (m : Int)

/-! ### Frame fields (30_encoding.md R87, R94) -/

/-- `ins(P, lo, w, v)`: P with bits lo+w-1 : lo replaced by v (30_encoding.md R94). -/
def ins (p : Payload) (lo : Nat) {w : Nat} (v : BitVec w) : Payload :=
  (p &&& ~~~((BitVec.allOnes w).setWidth 56 <<< lo)) ||| (v.setWidth 56 <<< lo)

/-- `ext(P, lo, w) = P[lo+w-1 : lo]` (30_encoding.md R94). -/
def ext (p : Payload) (lo w : Nat) : BitVec w := p.extractLsb' lo w

/-- `FR = {P, kind}` (30_encoding.md R94). -/
def frameOf (p : Payload) (kind : Byte) : DWord := p ++ kind

/-- `F[0] = FR[7:0]`, the kind byte (30_encoding.md R87). -/
def frameKind (fr : DWord) : Byte := fr.extractLsb' 0 8

/-- `P = FR[63:8]` (30_encoding.md R87). -/
def framePayload (fr : DWord) : Payload := fr.extractLsb' 8 56

/-- The kind codes (30_encoding.md R86). -/
def kindElectric : Byte := 1
/-- Kind 2 (30_encoding.md R86). -/
def kindMotion : Byte := 2
/-- Kind 3 (30_encoding.md R86). -/
def kindSensor : Byte := 3

/-- The Electric payload (30_encoding.md R90). -/
def packElectric (ts : BitVec 13) (volt : BitVec 10) (cur : BitVec 14) (faults : BitVec 11)
    (seq : BitVec 8) : Payload :=
  ins (ins (ins (ins (ins 0 0 ts) 13 volt) 23 cur) 37 faults) 48 seq

/-- The Motion payload (30_encoding.md R91); bits 55:53 stay 0 (R95). -/
def packMotion (ts : BitVec 13) (pulses : BitVec 32) (seq : BitVec 8) : Payload :=
  ins (ins (ins 0 0 ts) 13 pulses) 45 seq

/-- The SensorBlock payload (30_encoding.md R92); bits 55:27 stay 0 (R95). -/
def packSensor (t0 t1 t2 : BitVec 9) : Payload :=
  ins (ins (ins 0 0 t0) 9 t1) 18 t2

/-- The voltage field: saturated at 1023 (40_codec.md R114). -/
def voltField (v : Word) : BitVec 10 := BitVec.ofNat 10 (min v.toNat 1023)

/-- The voltage was saturated (40_codec.md R113). -/
def voltSat (v : Word) : Bool := decide (1023 < v.toNat)

/-- A signed register packed into a sign-magnitude field of width n (40_codec.md R113, R119). -/
def smField (n : Nat) (v : Word) : BitVec n := BitVec.ofNat n (smencPattern (s32 v) n)

/-- A sign-magnitude field as a 32-bit two's complement integer (40_codec.md R121, R123). -/
def smValue {n : Nat} (b : BitVec n) : Word := u32 (smdec b.toNat n)

/-! ### Deltas (41_accumulator.md R140, R141) -/

/-- `delta13(a, b) = wrap_13(b - a)` (41_accumulator.md R140). -/
def delta13 (a b : BitVec 13) : BitVec 13 := b - a

/-- `delta32(a, b) = wrap_32(b - a)` (41_accumulator.md R141). -/
def delta32 (a b : Word) : Word := b - a

/-! ### Pulses to distance and speed (41_accumulator.md R142 to R144, R151) -/

/-- The safe-multiplication threshold `T = (2^32 - 1) div MMPR` (41_accumulator.md R143). -/
def safeMulThreshold (mmpr : BitVec 16) : Nat := (2 ^ 32 - 1) / mmpr.toNat

/-- `mm(p)`: multiply first up to T, divide first above it (41_accumulator.md R142). -/
def mm (ppr mmpr : BitVec 16) (p : Word) : Nat :=
  if p.toNat ≤ safeMulThreshold mmpr then p.toNat * mmpr.toNat / ppr.toNat
  else p.toNat / ppr.toNat * mmpr.toNat

/-- `meters(p) = wrap_32(mm(p) div 1000)` (41_accumulator.md R144). -/
def meters (ppr mmpr : BitVec 16) (p : Word) : Word := BitVec.ofNat 32 (mm ppr mmpr p / 1000)

/-- `speed(dp, dt)` in 0.1 km/h: a zero dt is treated as 1 ms, saturating at 2^32 - 1
(41_accumulator.md R151). -/
def speedOf (ppr mmpr : BitVec 16) (dp : Word) (dt : BitVec 13) : Word :=
  let dt' := if dt.toNat = 0 then 1 else dt.toNat
  BitVec.ofNat 32 (min (36 * mm ppr mmpr dp / dt') (2 ^ 32 - 1))

/-! ### Energy (41_accumulator.md R160, R170) -/

/-- The current with the configured sign convention applied (41_accumulator.md R160). -/
def effectiveCurrent (currInv : Bool) (c : Word) : Int := if currInv then -(s32 c) else s32 c

/-- `e = wrap_64(v * abs(i) * dt)` in energy units (41_accumulator.md R160). -/
def energyOf (v : Word) (i : Int) (dt : BitVec 13) : DWord :=
  BitVec.ofNat 64 (v.toNat * i.natAbs * dt.toNat)

/-- NORM: the net energy over `36000 * d`, truncated and clamped to 32 bits (41_accumulator.md R170, R171). -/
def normOf (totC totR : DWord) (d : Word) : Word :=
  u32 (clamp (tdiv ((totC.toNat : Int) - totR.toNat) (36000 * d.toNat)) (-(2 ^ 31)) (2 ^ 31 - 1))

end Sys2Proof.Machine
end

