-- ==== Sys2Proof/Machine/RegMap.lean ====
section
/-! DEFINITION. The register map 10_state.md R22: names, offsets and access rights. -/

namespace Sys2Proof.Machine

/-- The mapped registers (10_state.md R22). -/
inductive Reg where
  | cmd | status | decErrCnt | cfg | frameLo | frameHi | argA | argB | result
  | eTs | eVolt | eCurr | eFaults | eSeq
  | mTs | mPulses | mSeq
  | sT0 | sT1 | sT2
  | ppr | mmpr | minTravelM
  | odoBase | odoRun | pulseRef | mTsRef
  | trip0 | trip1 | trip2
  | dist0 | dist1 | dist2 | speed
  | eTsRef
  | eaccCLo | eaccCHi | eaccRLo | eaccRHi
  | etotCLo | etotCHi | etotRLo | etotRHi
  | norm | id
deriving DecidableEq, Repr

/-- The access codes (10_state.md R22). -/
inductive Access where
  /-- The host may read and write it. -/
  | rw
  /-- Host writes are ignored. -/
  | ro
  /-- Host reads return 0. -/
  | wo
deriving DecidableEq, Repr

/-- The map's registers in its order. -/
def Reg.all : List Reg :=
  [.cmd, .status, .decErrCnt, .cfg, .frameLo, .frameHi, .argA, .argB, .result,
   .eTs, .eVolt, .eCurr, .eFaults, .eSeq, .mTs, .mPulses, .mSeq, .sT0, .sT1, .sT2,
   .ppr, .mmpr, .minTravelM, .odoBase, .odoRun, .pulseRef, .mTsRef, .trip0, .trip1, .trip2] ++
  [.dist0, .dist1, .dist2, .speed, .eTsRef, .eaccCLo, .eaccCHi, .eaccRLo, .eaccRHi,
   .etotCLo, .etotCHi, .etotRLo, .etotRHi, .norm, .id]

/-- The offset column (10_state.md R22). -/
def Reg.offset : Reg → Offset
  | .cmd => 0x000
  | .status => 0x004
  | .decErrCnt => 0x008
  | .cfg => 0x00C
  | .frameLo => 0x010
  | .frameHi => 0x014
  | .argA => 0x018
  | .argB => 0x01C
  | .result => 0x020
  | .eTs => 0x030
  | .eVolt => 0x034
  | .eCurr => 0x038
  | .eFaults => 0x03C
  | .eSeq => 0x040
  | .mTs => 0x050
  | .mPulses => 0x054
  | .mSeq => 0x058
  | .sT0 => 0x060
  | .sT1 => 0x064
  | .sT2 => 0x068
  | .ppr => 0x080
  | .mmpr => 0x084
  | .minTravelM => 0x088
  | .odoBase => 0x090
  | .odoRun => 0x094
  | .pulseRef => 0x098
  | .mTsRef => 0x09C
  | .trip0 => 0x0A0
  | .trip1 => 0x0A4
  | .trip2 => 0x0A8
  | .dist0 => 0x0B0
  | .dist1 => 0x0B4
  | .dist2 => 0x0B8
  | .speed => 0x0BC
  | .eTsRef => 0x0C0
  | .eaccCLo => 0x0C8
  | .eaccCHi => 0x0CC
  | .eaccRLo => 0x0D0
  | .eaccRHi => 0x0D4
  | .etotCLo => 0x0D8
  | .etotCHi => 0x0DC
  | .etotRLo => 0x0E0
  | .etotRHi => 0x0E4
  | .norm => 0x0E8
  | .id => 0x0FC

/-- The access column (10_state.md R22, R49). -/
def Reg.access : Reg → Access
  | .cmd => .wo
  | .status | .result | .odoRun | .pulseRef | .mTsRef | .dist0 | .dist1 | .dist2 | .speed | .eTsRef
  | .eaccCLo | .eaccCHi | .eaccRLo | .eaccRHi | .norm | .id => .ro
  | .decErrCnt | .cfg | .frameLo | .frameHi | .argA | .argB
  | .eTs | .eVolt | .eCurr | .eFaults | .eSeq | .mTs | .mPulses | .mSeq | .sT0 | .sT1 | .sT2
  | .ppr | .mmpr | .minTravelM | .odoBase | .trip0 | .trip1 | .trip2
  | .etotCLo | .etotCHi | .etotRLo | .etotRHi => .rw

/-- The register at an offset, or none at a reserved one (10_state.md R48). -/
def regAt (off : Offset) : Option Reg := Reg.all.find? fun r => r.offset == off

end Sys2Proof.Machine
end

