-- ==== Sys2Proof/Machine/Ops.lean ====
section
/-! DEFINITION. The shared operations over the registers: the frame buffer, the odometer total, the ONE read and
the ONE write of a register by the host, and what an illegal command does.

There is no exception to take and none to return from: FCA has no trap mechanism, "no state is saved, no mode
changes, and control goes nowhere" (60_exceptions.md R185, R186). What stands in its place is the outcome of an
illegal command word, `State.illegalCommand`. -/

namespace Sys2Proof.Machine

/-- The constant of ID: 0x0FCA0007 (10_state.md R23). -/
def idValue : Word := 0x0FCA0007

/-- Bits 31:0 of a 64-bit pair (00_scope.md R13). -/
def lo32 (v : DWord) : Word := v.extractLsb' 0 32

/-- Bits 63:32 of a 64-bit pair (00_scope.md R13). -/
def hi32 (v : DWord) : Word := v.extractLsb' 32 32

/-- The outcome of an illegal command word: the transient bits are cleared, CMD_ERR is set, and "no other
register changes" (30_encoding.md R88). -/
def State.illegalCommand (s : State) : State := s.setStatus s.status.clearTransient.flagCmdErr

/-- `FR = {x[FRAME_HI], x[FRAME_LO]}` (10_state.md R30). -/
def State.frame (s : State) : DWord := s.frameHi ++ s.frameLo

/-- `x[FRAME_LO] <- FR[31:0]; x[FRAME_HI] <- FR[63:32]` (30_encoding.md R94). -/
def State.setFrame (s : State) (fr : DWord) : State :=
  { s with frameLo := lo32 fr, frameHi := hi32 fr }

/-- `x[RESULT] <- v` (10_state.md R31). -/
def State.setResult (s : State) (v : Word) : State := { s with result := v }

/-- `total = wrap_32(x[ODO_BASE] + x[ODO_RUN])` (41_accumulator.md R154). -/
def State.total (s : State) : Word := s.odoBase + s.odoRun

/-- `meters(p)` under the machine's PPR and MMPR (41_accumulator.md R144). -/
def State.metersOf (s : State) (p : Word) : Word := meters s.ppr s.mmpr p

/-- `recompute_dist()` (41_accumulator.md R154). -/
def State.recomputeDist (s : State) : State :=
  { s with
    dist0 := s.metersOf (s.total - s.trip0)
    dist1 := s.metersOf (s.total - s.trip1)
    dist2 := s.metersOf (s.total - s.trip2) }

/-- A host read of a register (10_state.md R22): CMD reads 0 (R49), reserved bits read 0 (R48), ID is a
constant (R23). -/
def State.readReg (s : State) : Reg → Word
  | .cmd => 0
  | .status => s.status.word
  | .decErrCnt => s.decErrCnt
  | .cfg => (BitVec.ofBool s.currInv).setWidth 32
  | .frameLo => s.frameLo
  | .frameHi => s.frameHi
  | .argA => s.argA
  | .argB => s.argB
  | .result => s.result
  | .eTs => s.eTs
  | .eVolt => s.eVolt
  | .eCurr => s.eCurr
  | .eFaults => s.eFaults
  | .eSeq => s.eSeq
  | .mTs => s.mTs
  | .mPulses => s.mPulses
  | .mSeq => s.mSeq
  | .sT0 => s.sT0
  | .sT1 => s.sT1
  | .sT2 => s.sT2
  | .ppr => s.ppr.setWidth 32
  | .mmpr => s.mmpr.setWidth 32
  | .minTravelM => s.minTravelM
  | .odoBase => s.odoBase
  | .odoRun => s.odoRun
  | .pulseRef => s.pulseRef
  | .mTsRef => s.mTsRef.setWidth 32
  | .trip0 => s.trip0
  | .trip1 => s.trip1
  | .trip2 => s.trip2
  | .dist0 => s.dist0
  | .dist1 => s.dist1
  | .dist2 => s.dist2
  | .speed => s.speed
  | .eTsRef => s.eTsRef.setWidth 32
  | .eaccCLo => lo32 s.eaccC
  | .eaccCHi => hi32 s.eaccC
  | .eaccRLo => lo32 s.eaccR
  | .eaccRHi => hi32 s.eaccR
  | .etotCLo => lo32 s.etotC
  | .etotCHi => hi32 s.etotC
  | .etotRLo => lo32 s.etotR
  | .etotRHi => hi32 s.etotR
  | .norm => s.norm
  | .id => idValue

/-- A host read of an offset: a reserved one returns 0 (10_state.md R48). -/
def State.readOffset (s : State) (off : Offset) : Word :=
  match regAt off with
  | none => 0
  | some r => s.readReg r

/-- A 16-bit write-any-read-legal field: bits 15:0 when they are nonzero, else the old value
(10_state.md R36). -/
def warl16 (old : BitVec 16) (v : Word) : BitVec 16 :=
  if v.extractLsb' 0 16 = 0 then old else v.extractLsb' 0 16

/-- The storing part of a host write of a register (10_state.md R22). Read-only registers ignore it (R49); a
half of ETOT changes only that half (20_memory.md R67); CMD stores nothing (its command is `hostWrite`'s,
Machine/Bus.lean). -/
def State.writeReg (s : State) (v : Word) : Reg → State
  | .cmd => s
  | .status => s
  | .decErrCnt => { s with decErrCnt := v }
  | .cfg => { s with currInv := v.getLsbD 0 }
  | .frameLo => { s with frameLo := v }
  | .frameHi => { s with frameHi := v }
  | .argA => { s with argA := v }
  | .argB => { s with argB := v }
  | .result => s
  | .eTs => { s with eTs := v }
  | .eVolt => { s with eVolt := v }
  | .eCurr => { s with eCurr := v }
  | .eFaults => { s with eFaults := v }
  | .eSeq => { s with eSeq := v }
  | .mTs => { s with mTs := v }
  | .mPulses => { s with mPulses := v }
  | .mSeq => { s with mSeq := v }
  | .sT0 => { s with sT0 := v }
  | .sT1 => { s with sT1 := v }
  | .sT2 => { s with sT2 := v }
  | .ppr => { s with ppr := warl16 s.ppr v }
  | .mmpr => { s with mmpr := warl16 s.mmpr v }
  | .minTravelM => { s with minTravelM := v }
  | .odoBase => { s with odoBase := v }
  | .odoRun => s
  | .pulseRef => s
  | .mTsRef => s
  | .trip0 => { s with trip0 := v }
  | .trip1 => { s with trip1 := v }
  | .trip2 => { s with trip2 := v }
  | .dist0 => s
  | .dist1 => s
  | .dist2 => s
  | .speed => s
  | .eTsRef => s
  | .eaccCLo => s
  | .eaccCHi => s
  | .eaccRLo => s
  | .eaccRHi => s
  | .etotCLo => { s with etotC := hi32 s.etotC ++ v }
  | .etotCHi => { s with etotC := v ++ lo32 s.etotC }
  | .etotRLo => { s with etotR := hi32 s.etotR ++ v }
  | .etotRHi => { s with etotR := v ++ lo32 s.etotR }
  | .norm => s
  | .id => s

end Sys2Proof.Machine
end

