-- ==== Sys2Proof/Machine/Accumulator.lean ====
section
/-! DEFINITION. The accumulator family (41_accumulator.md): deltas, distance conversion, odometer and energy.
Each meaning is the whole effect of the command's write to CMD, the clearing of the transient bits
(10_state.md R25) included. -/

namespace Sys2Proof.Machine

/-- DELTA13 (41_accumulator.md R145): bits 31:13 of both operands are ignored. -/
def execDelta13 (s : State) : Host.Outcome State Fault Refusal :=
  .next (s.beginCommand.setResult ((delta13 (s.argA.setWidth 13) (s.argB.setWidth 13)).setWidth 32))

/-- DELTA32 (41_accumulator.md R146). -/
def execDelta32 (s : State) : Host.Outcome State Fault Refusal :=
  .next (s.beginCommand.setResult (delta32 s.argA s.argB))

/-- PULSE2M (41_accumulator.md R147). -/
def execPulse2m (s : State) : Host.Outcome State Fault Refusal :=
  .next (s.beginCommand.setResult (s.metersOf s.argA))

/-- `dp` of one Motion sample: 0 for the first one since reset (41_accumulator.md R150, R152). -/
def State.pulseDelta (s : State) : Word :=
  if s.status.mref then delta32 s.pulseRef s.mPulses else 0

/-- The new SPEED of one Motion sample: 0 for the first one since reset (41_accumulator.md R150, R152). -/
def State.sampleSpeed (s : State) : Word :=
  if s.status.mref then speedOf s.ppr s.mmpr s.pulseDelta (delta13 s.mTsRef (s.mTs.setWidth 13)) else 0

/-- ACC_MOTION's register writes up to `recompute_dist` (41_accumulator.md R150). -/
def State.applyMotion (s : State) : State :=
  { s with
    speed := s.sampleSpeed
    odoRun := s.odoRun + s.pulseDelta
    pulseRef := s.mPulses
    mTsRef := s.mTs.setWidth 13 }

/-- ACC_MOTION (41_accumulator.md R150). -/
def execAccMotion (s : State) : Host.Outcome State Fault Refusal :=
  .next (s.applyMotion.setStatus s.status.clearTransient.setMref).recomputeDist

/-- DIST_UPD (41_accumulator.md R153). -/
def execDistUpd (s : State) : Host.Outcome State Fault Refusal :=
  .next s.beginCommand.recomputeDist

/-- `x[TRIPk] <- total; x[DISTk] <- 0` (41_accumulator.md R156); nothing for k > 2, which is no counter. -/
def State.resetTrip (s : State) (k : Nat) : State :=
  match k with
  | 0 => { s with trip0 := s.total, dist0 := 0 }
  | 1 => { s with trip1 := s.total, dist1 := 0 }
  | 2 => { s with trip2 := s.total, dist2 := 0 }
  | _ => s

/-- TRIP_RESET k (41_accumulator.md R156). An index above 2 makes the word illegal (30_encoding.md R83, R88): on
such a term, which the decoder never yields, the effect is that of its illegal word. -/
def execTripReset (k : Arg) (s : State) : Host.Outcome State Fault Refusal :=
  if tripLegal k then .next (s.beginCommand.resetTrip k.toNat) else .next s.illegalCommand

/-- `x[ODO_BASE] <- total; x[ODO_RUN] <- 0` (41_accumulator.md R157). -/
def State.foldOdometer (s : State) : State := { s with odoBase := s.total, odoRun := 0 }

/-- ODO_FOLD (41_accumulator.md R157). -/
def execOdoFold (s : State) : Host.Outcome State Fault Refusal :=
  .next s.beginCommand.foldOdometer

/-- `dt` of one Electric sample: 0 for the first one since reset (41_accumulator.md R160). -/
def State.electricDelta (s : State) : BitVec 13 :=
  if s.status.eref then delta13 s.eTsRef (s.eTs.setWidth 13) else 0

/-- `i` of one Electric sample (41_accumulator.md R160). -/
def State.sampleCurrent (s : State) : Int := effectiveCurrent s.currInv s.eCurr

/-- `e` of one Electric sample (41_accumulator.md R160). -/
def State.sampleEnergy (s : State) : DWord := energyOf s.eVolt s.sampleCurrent s.electricDelta

/-- ACC_ELEC's register writes (41_accumulator.md R160): the energy goes to EACC_C when i > 0, to EACC_R when
i < 0, to neither when i = 0. -/
def State.applyElectric (s : State) : State :=
  { s with
    eTsRef := s.eTs.setWidth 13
    eaccC := if 0 < s.sampleCurrent then s.eaccC + s.sampleEnergy else s.eaccC
    eaccR := if s.sampleCurrent < 0 then s.eaccR + s.sampleEnergy else s.eaccR }

/-- ACC_ELEC (41_accumulator.md R160). -/
def execAccElec (s : State) : Host.Outcome State Fault Refusal :=
  .next (s.applyElectric.setStatus s.status.clearTransient.setEref)

/-- The folding branch of E_FOLD (41_accumulator.md R170): NORM is computed from the new totals. -/
def State.foldEnergy (s : State) : State :=
  { s with
    etotC := s.etotC + s.eaccC
    etotR := s.etotR + s.eaccR
    eaccC := 0
    eaccR := 0
    norm := normOf (s.etotC + s.eaccC) (s.etotR + s.eaccR) s.argA }

/-- E_FOLD (41_accumulator.md R170): the gate is strict, `d > MIN_TRAVEL_M`. -/
def execEFold (s : State) : Host.Outcome State Fault Refusal :=
  if s.minTravelM.toNat < s.argA.toNat then .next s.beginCommand.foldEnergy
  else .next (s.setStatus s.status.clearTransient.flagFoldSkip)

end Sys2Proof.Machine
end

