-- ==== Sys2Proof/Machine/Codec.lean ====
section
/-! DEFINITION. The codec family (40_codec.md): NOP, the three encoders, the decoder and the sign-magnitude
primitives. Each meaning is the whole effect of the command's write to CMD, the clearing of the transient bits
(10_state.md R25) included. -/

namespace Sys2Proof.Machine

/-- NOP (40_codec.md R127): nothing beyond the transient-bit clear. -/
def execNop (s : State) : Host.Outcome State Fault Refusal :=
  .next s.beginCommand

/-- ENC_ELEC (40_codec.md R113, R114). -/
def execEncElec (s : State) : Host.Outcome State Fault Refusal :=
  let p := packElectric (s.eTs.setWidth 13) (voltField s.eVolt) (smField 14 s.eCurr)
    (s.eFaults.extractLsb' 0 11) (s.eSeq.setWidth 8)
  let saturated := voltSat s.eVolt || smencSat (s32 s.eCurr) 14
  .next ((s.setFrame (frameOf p kindElectric)).setStatus (s.status.clearTransient.flagSatIf saturated))

/-- ENC_MOTION (40_codec.md R116): no Motion field can saturate (R117). -/
def execEncMotion (s : State) : Host.Outcome State Fault Refusal :=
  let p := packMotion (s.mTs.setWidth 13) s.mPulses (s.mSeq.setWidth 8)
  .next (s.beginCommand.setFrame (frameOf p kindMotion))

/-- ENC_SENSOR (40_codec.md R119). -/
def execEncSensor (s : State) : Host.Outcome State Fault Refusal :=
  let p := packSensor (smField 9 s.sT0) (smField 9 s.sT1) (smField 9 s.sT2)
  let saturated := smencSat (s32 s.sT0) 9 || smencSat (s32 s.sT1) 9 || smencSat (s32 s.sT2) 9
  .next ((s.setFrame (frameOf p kindSensor)).setStatus (s.status.clearTransient.flagSatIf saturated))

/-- `unpack_electric(P)` (40_codec.md R121). -/
def State.unpackElectric (s : State) (p : Payload) : State :=
  { s with
    eTs := (ext p 0 13).setWidth 32
    eVolt := (ext p 13 10).setWidth 32
    eCurr := smValue (ext p 23 14)
    eFaults := (ext p 37 11).setWidth 32
    eSeq := (ext p 48 8).setWidth 32 }

/-- `unpack_motion(P)` (40_codec.md R122). -/
def State.unpackMotion (s : State) (p : Payload) : State :=
  { s with
    mTs := (ext p 0 13).setWidth 32
    mPulses := ext p 13 32
    mSeq := (ext p 45 8).setWidth 32 }

/-- `unpack_sensor(P)` (40_codec.md R123). -/
def State.unpackSensor (s : State) (p : Payload) : State :=
  { s with
    sT0 := smValue (ext p 0 9)
    sT1 := smValue (ext p 9 9)
    sT2 := smValue (ext p 18 9) }

/-- `unrecognized(kind)` (40_codec.md R124): flagged and counted, no field register changes. -/
def State.unrecognizedKind (s : State) : State :=
  { s with status := s.status.flagKindErr, decErrCnt := s.decErrCnt + 1 }

/-- The case of DEC on the kind byte (40_codec.md R120). -/
def State.unpackFrame (s : State) (kind : Byte) (p : Payload) : State :=
  if kind = kindElectric then s.unpackElectric p
  else if kind = kindMotion then s.unpackMotion p
  else if kind = kindSensor then s.unpackSensor p
  else s.unrecognizedKind

/-- DEC (40_codec.md R120). -/
def execDec (s : State) : Host.Outcome State Fault Refusal :=
  let kind := frameKind s.frame
  .next ((s.setStatus (s.status.clearTransient.setLastKind kind)).unpackFrame kind (framePayload s.frame))

/-- SM_ENC N (40_codec.md R125). A width outside 2..32 makes the word illegal (30_encoding.md R83, R88): on
such a term, which the decoder never yields, the effect is that of its illegal word. -/
def execSmEnc (n : Arg) (s : State) : Host.Outcome State Fault Refusal :=
  if widthLegal n then
    let v := s32 s.argA
    .next ((s.setResult (BitVec.ofNat 32 (smencPattern v n.toNat))).setStatus
      (s.status.clearTransient.flagSatIf (smencSat v n.toNat)))
  else .next s.illegalCommand

/-- SM_DEC N (40_codec.md R126): bits 31:N of ARG_A are ignored. Illegal widths as in `execSmEnc`. -/
def execSmDec (n : Arg) (s : State) : Host.Outcome State Fault Refusal :=
  if widthLegal n then
    .next (s.beginCommand.setResult (u32 (smdec (s.argA.toNat % 2 ^ n.toNat) n.toNat)))
  else .next s.illegalCommand

end Sys2Proof.Machine
end

