-- ==== Sys2Proof/Machine/Dispatch.lean ====
section
/-! DEFINITION. One arm per command: the whole effect of writing its word to CMD (20_memory.md R66). -/

namespace Sys2Proof.Machine

def exec (i : Instr) (s : State) : Host.Outcome State Fault Refusal :=
  match i with
  | .nop => Sys2Proof.Machine.execNop s
  | .encElec => Sys2Proof.Machine.execEncElec s
  | .encMotion => Sys2Proof.Machine.execEncMotion s
  | .encSensor => Sys2Proof.Machine.execEncSensor s
  | .dec => Sys2Proof.Machine.execDec s
  | .smEnc n => Sys2Proof.Machine.execSmEnc n s
  | .smDec n => Sys2Proof.Machine.execSmDec n s
  | .delta13 => Sys2Proof.Machine.execDelta13 s
  | .delta32 => Sys2Proof.Machine.execDelta32 s
  | .pulse2m => Sys2Proof.Machine.execPulse2m s
  | .accMotion => Sys2Proof.Machine.execAccMotion s
  | .distUpd => Sys2Proof.Machine.execDistUpd s
  | .tripReset k => Sys2Proof.Machine.execTripReset k s
  | .odoFold => Sys2Proof.Machine.execOdoFold s
  | .accElec => Sys2Proof.Machine.execAccElec s
  | .eFold => Sys2Proof.Machine.execEFold s

end Sys2Proof.Machine
end

