-- ==== Sys2Proof/Machine/Bus.lean ====
section
/-! DEFINITION. What one host event does (20_memory.md R61 to R70): reads, writes, a command, reset. -/

namespace Sys2Proof.Machine

/-- A write of `w` to CMD: the command it names, or CMD_ERR when it is illegal (30_encoding.md R88). Both clear
the transient bits first (10_state.md R25). -/
def runCommand (w : Word) (s : State) : Host.Outcome State Fault Refusal :=
  match decode w with
  | .ok i => exec i s
  | .error _ => .next s.illegalCommand

/-- The word a host read returns, handed to the host (20_memory.md R65; log entry 2). -/
def State.addReply (s : State) (v : Word) : State := { s with replies := s.replies ++ [v] }

/-- An aligned 32-bit host read: the word is returned and no register changes (20_memory.md R65). -/
def hostRead (off : Offset) (s : State) : Host.Outcome State Fault Refusal :=
  .next (s.addReply (s.readOffset off))

/-- An aligned 32-bit host write: CMD performs a command, a mapped register stores what its access right and
its bits allow, a reserved offset ignores the write (10_state.md R22, R48, R49). -/
def hostWrite (off : Offset) (v : Word) (s : State) : Host.Outcome State Fault Refusal :=
  match regAt off with
  | none => .next s
  | some .cmd => runCommand v s
  | some r => .next (s.writeReg v r)

/-- Only aligned 32-bit accesses are defined; any other is refused (20_memory.md R61, R62). -/
def checkAccess (width : AccessWidth) (off : Offset) : Option Refusal :=
  match width with
  | .bits8 => some .subWordAccess
  | .bits16 => some .subWordAccess
  | .bits32 => if off.toNat % 4 = 0 then none else some .misalignedAccess

/-- Reset of the block (70_reset_and_hazards.md R200): every register to its reset value; the host's side of the
bus is not the block's. -/
def State.resetBlock (s : State) : State :=
  { State.reset with pending := s.pending, replies := s.replies }

/-- The queue of host events replaced (log entry 1). -/
def State.setPending (s : State) (rest : List HostEvent) : State := { s with pending := rest }

/-- One host event. -/
def hostEvent (e : HostEvent) (s : State) : Host.Outcome State Fault Refusal :=
  match e with
  | .read width off =>
    match checkAccess width off with
    | some r => .refused r
    | none => hostRead off s
  | .write width off v =>
    match checkAccess width off with
    | some r => .refused r
    | none => hostWrite off v s
  | .reset => .next s.resetBlock

end Sys2Proof.Machine
end

