-- ==== Sys2Proof/Machine/Step.lean ====
section
/-! DEFINITION. One step: the next pending host event (20_memory.md R70, R73: "The program is the host's sequence
of accesses"). Nothing is fetched and there is no program counter (10_state.md R21). -/

namespace Sys2Proof.Machine

/-- The next host event is taken from the queue and performed; with none pending the block is idle
(70_reset_and_hazards.md R201) and nothing changes. -/
def step (s : State) : Host.Outcome State Fault Refusal :=
  match s.pending with
  | [] => .next s
  | e :: rest => hostEvent e (s.setPending rest)

/-- `s` with the command word whose bits are `w` as the very next host event, a write to CMD (log entry 1). -/
def State.withFetchWord (s : State) (nbits w : Nat) : State :=
  s.setPending (.write .bits32 0x000 (BitVec.ofNat 32 (w % 2 ^ nbits)) :: s.pending)

end Sys2Proof.Machine
end

