-- ==== Sys2Proof/Machine/HostProgram.lean ====
section
/-! DEFINITION. Host programs (30_encoding.md R97 to R99; 70_reset_and_hazards.md R205, R207): the assembler
syntax, the accesses it stands for, and the pseudo-instructions. "A pseudo-instruction is only shorthand: it has
no encoding of its own and adds no semantics" (R99), so each is a list of host events and `step` does the rest. -/

namespace Sys2Proof.Machine

/-! ### Accesses (30_encoding.md R97, R98) -/

/-- `wr NAME, v` is `MemWrite(offset(NAME), 4, u32(v))` (30_encoding.md R98). -/
def wr (r : Reg) (v : Int) : HostEvent := .write .bits32 r.offset (u32 v)

/-- `rd NAME` is `MemRead(offset(NAME), 4)` (30_encoding.md R98). -/
def rd (r : Reg) : HostEvent := .read .bits32 r.offset

/-- `cmd M` is `MemWrite(0x000, 4, word(M))` (30_encoding.md R97). -/
def cmd (i : Instr) : HostEvent := .write .bits32 0x000 (encode i)

/-! ### Pseudo-instructions (30_encoding.md R99) -/

/-- The 64-bit register pairs (10_state.md R45, R46). -/
inductive RegPair where
  | eaccC | eaccR | etotC | etotR
deriving DecidableEq, Repr

/-- `NAME_LO` (10_state.md R22). -/
def RegPair.lo : RegPair → Reg
  | .eaccC => .eaccCLo
  | .eaccR => .eaccRLo
  | .etotC => .etotCLo
  | .etotR => .etotRLo

/-- `NAME_HI` (10_state.md R22). -/
def RegPair.hi : RegPair → Reg
  | .eaccC => .eaccCHi
  | .eaccR => .eaccRHi
  | .etotC => .etotCHi
  | .etotR => .etotRHi

/-- `wr64 NAME, v`. -/
def wr64 (p : RegPair) (v : DWord) : List HostEvent :=
  [wr p.lo (lo32 v).toNat, wr p.hi (hi32 v).toNat]

/-- `rd64 NAME`, with no command between the two reads. -/
def rd64 (p : RegPair) : List HostEvent := [rd p.lo, rd p.hi]

/-- `send_elec ts, v, i, f, s`. -/
def sendElec (ts v i f s : Int) : List HostEvent :=
  [wr .eTs ts, wr .eVolt v, wr .eCurr i, wr .eFaults f, wr .eSeq s, cmd .encElec]

/-- `send_motion ts, p, s`. -/
def sendMotion (ts p s : Int) : List HostEvent :=
  [wr .mTs ts, wr .mPulses p, wr .mSeq s, cmd .encMotion]

/-- `send_sensor t0, t1, t2`. -/
def sendSensor (t0 t1 t2 : Int) : List HostEvent :=
  [wr .sT0 t0, wr .sT1 t1, wr .sT2 t2, cmd .encSensor]

/-- `recv lo, hi`. -/
def recv (lo hi : Int) : List HostEvent := [wr .frameLo lo, wr .frameHi hi, cmd .dec]

/-- `smenc v, N`. -/
def smencProgram (v : Int) (n : Arg) : List HostEvent := [wr .argA v, cmd (.smEnc n), rd .result]

/-- `smdec b, N`. -/
def smdecProgram (b : Int) (n : Arg) : List HostEvent := [wr .argA b, cmd (.smDec n), rd .result]

/-- `delta13 a, b`. -/
def delta13Program (a b : Int) : List HostEvent := [wr .argA a, wr .argB b, cmd .delta13, rd .result]

/-- `delta32 a, b`. -/
def delta32Program (a b : Int) : List HostEvent := [wr .argA a, wr .argB b, cmd .delta32, rd .result]

/-- `pulse2m p`. -/
def pulse2mProgram (p : Int) : List HostEvent := [wr .argA p, cmd .pulse2m, rd .result]

/-- `fold_energy d`. -/
def foldEnergyProgram (d : Int) : List HostEvent := [wr .argA d, cmd .eFold]

/-! ### Host duties (70_reset_and_hazards.md R205, R207) -/

/-- The boot duty (70_reset_and_hazards.md R205): configuration, restore, then DIST_UPD. -/
def bootProgram (ppr mmpr currInv minTravel odoBase trip0 trip1 trip2 : Int) (etotC etotR : DWord) :
    List HostEvent :=
  [wr .ppr ppr, wr .mmpr mmpr, wr .cfg currInv, wr .minTravelM minTravel,
   wr .odoBase odoBase, wr .trip0 trip0, wr .trip1 trip1, wr .trip2 trip2] ++
  wr64 .etotC etotC ++ wr64 .etotR etotR ++ [cmd .distUpd]

/-- The save duty (70_reset_and_hazards.md R207): fold, then read what is kept. -/
def saveProgram : List HostEvent :=
  [cmd .odoFold, rd .odoBase, rd .trip0, rd .trip1, rd .trip2] ++ rd64 .etotC ++ rd64 .etotR

/-! ### Command syntax (30_encoding.md R97) -/

/-- The mnemonics of the commands without an operand (30_encoding.md R82). -/
def plainMnemonics : List (String × Instr) :=
  [("NOP", .nop), ("ENC_ELEC", .encElec), ("ENC_MOTION", .encMotion), ("ENC_SENSOR", .encSensor),
   ("DEC", .dec), ("DELTA13", .delta13), ("DELTA32", .delta32), ("PULSE2M", .pulse2m),
   ("ACC_MOTION", .accMotion), ("DIST_UPD", .distUpd), ("ODO_FOLD", .odoFold),
   ("ACC_ELEC", .accElec), ("E_FOLD", .eFold)]

/-- The mnemonics of the commands with a decimal operand, N or k (30_encoding.md R97). -/
def operandMnemonics : List (String × (Arg → Instr)) :=
  [("SM_ENC", .smEnc), ("SM_DEC", .smDec), ("TRIP_RESET", .tripReset)]

/-- Mnemonics are case-insensitive (30_encoding.md R97). -/
def sameMnemonic (text : List Char) (m : String) : Bool := text.map Char.toUpper == m.toList

/-- The words of a line, split at spaces. -/
def splitWords : List Char → List (List Char)
  | [] => []
  | c :: cs =>
    if c = ' ' then [] :: splitWords cs
    else match splitWords cs with
      | [] => [[c]]
      | w :: ws => (c :: w) :: ws

/-- A decimal number. -/
def decimal (digits : List Char) : Option Nat :=
  match digits with
  | [] => none
  | _ => digits.foldl (fun acc c =>
      match acc with
      | none => none
      | some n => if c.isDigit then some (n * 10 + (c.toNat - '0'.toNat)) else none) (some 0)

/-- A command line as written (30_encoding.md R97), or none where it names no legal command. -/
def assemble (line : List Char) : Option Instr :=
  match (splitWords line).filter (fun w => !w.isEmpty) with
  | [m] => (plainMnemonics.find? fun row => sameMnemonic m row.1).map Prod.snd
  | [m, operand] =>
    match operandMnemonics.find? (fun row => sameMnemonic m row.1), decimal operand with
    | some row, some n =>
      if n < 64 ∧ (row.2 (BitVec.ofNat 6 n)).wellFormed then some (row.2 (BitVec.ofNat 6 n)) else none
    | _, _ => none
  | _ => none

end Sys2Proof.Machine
end

