-- ==== Sys2Proof/Safety.lean ====
section
/-! DEFINITION. What counts as a safe run, in the terms the statements use: the defined host events, and the
invariant of the block that every step keeps. -/

namespace Sys2Proof.Machine

/-- The host events the spec defines: aligned 32-bit accesses (20_memory.md R61, R62) and reset
(70_reset_and_hazards.md R200). -/
def HostEvent.defined : HostEvent → Bool
  | .read .bits32 off => decide (off.toNat % 4 = 0)
  | .write .bits32 off _ => decide (off.toNat % 4 = 0)
  | .read .bits8 _ | .read .bits16 _ | .write .bits8 _ _ | .write .bits16 _ _ => false
  | .reset => true

/-- A run is safe when every event still to come is defined: then no step refuses. -/
def State.safeQueue (s : State) : Prop := ∀ e ∈ s.pending, e.defined = true

/-- How many transient STATUS bits are 1 (10_state.md R24). -/
def Status.transientCount (st : Status) : Nat :=
  st.kindErr.toNat + st.sat.toNat + st.cmdErr.toNat + st.foldSkip.toNat

/-- A recognized kind byte (30_encoding.md R86). -/
def recognizedKind (k : Byte) : Bool := k == 1 || k == 2 || k == 3

/-- The invariant of the block: what holds at reset and is kept by every step. -/
structure State.Inv (s : State) : Prop where
  /-- "PPR ≥ 1 ... always hold" (10_state.md R36). -/
  ppr_nonzero : 1 ≤ s.ppr.toNat
  /-- "MMPR ≥ 1 always hold" (10_state.md R36). -/
  mmpr_nonzero : 1 ≤ s.mmpr.toNat
  /-- A command sets at most one transient bit (60_exceptions.md R184). -/
  one_transient : s.status.transientCount ≤ 1
  /-- KIND_ERR describes the kind in LAST_KIND (10_state.md R25, R26; 40_codec.md R124). -/
  kind_err : s.status.kindErr = true → recognizedKind s.status.lastKind = false
  /-- Before the first Motion sample since reset nothing has been counted (10_state.md R27; 41_accumulator.md R150). -/
  no_motion : s.status.mref = false → s.odoRun = 0 ∧ s.pulseRef = 0 ∧ s.mTsRef = 0 ∧ s.speed = 0
  /-- Before the first Electric sample since reset nothing has been integrated (10_state.md R27;
  41_accumulator.md R160). -/
  no_electric : s.status.eref = false → s.eTsRef = 0 ∧ s.eaccC = 0 ∧ s.eaccR = 0

end Sys2Proof.Machine
end

