-- ==== Sys2Proof/Certificates/Slice0/Obligations.lean ====
section
/-! DEFINITION. The statements about the model. Values are said as numbers, in the spec's arithmetic, so that a
statement does not repeat the definition it is about. A frame is said as one equation: the next state IS the old
one with the named registers replaced, so nothing else changes. -/

open Sys2Proof Sys2Proof.Machine

/-! ## The spec's arithmetic, as the statements use it -/

namespace Sys2Proof.Claims

/-- The frame `FR` as a number (10_state.md R30). -/
def frameNat (s : State) : Nat := s.frameLo.toNat + 2 ^ 32 * s.frameHi.toNat

/-- `x[lo+w-1 : lo]` of a number (00_scope.md R11). -/
def bits (x lo w : Nat) : Nat := x / 2 ^ lo % 2 ^ w

/-- The N-bit sign-magnitude code of v with saturation (40_codec.md R110). -/
def smCode (v : Int) (n : Nat) : Nat :=
  (if v < 0 then 2 ^ (n - 1) else 0) + min v.natAbs (2 ^ (n - 1) - 1)

/-- v does not fit an N-bit sign-magnitude field (40_codec.md R110). -/
def smTooBig (v : Int) (n : Nat) : Bool := decide (2 ^ (n - 1) ≤ v.natAbs)

/-- The integer an N-bit sign-magnitude pattern stands for (40_codec.md R111). -/
def smInt (x n : Nat) : Int :=
  if x < 2 ^ (n - 1) then (x : Int) else (2 ^ (n - 1) : Nat) - (x : Int)

/-- Millimetres of p pulses: multiply first while the product fits 32 bits, else divide first
(41_accumulator.md R142, R143). -/
def millimetres (s : State) (p : Nat) : Nat :=
  if p * s.mmpr.toNat < 2 ^ 32 then p * s.mmpr.toNat / s.ppr.toNat else p / s.ppr.toNat * s.mmpr.toNat

/-- The wrapped pulse total (41_accumulator.md R154). -/
def totalPulses (s : State) : Nat := (s.odoBase.toNat + s.odoRun.toNat) % 2 ^ 32

/-- The distance of a counter with the given baseline, in metres (41_accumulator.md R144, R154). -/
def distance (s : State) (trip : Word) : Nat :=
  millimetres s ((totalPulses s + 2 ^ 32 - trip.toNat) % 2 ^ 32) / 1000 % 2 ^ 32

/-- STATUS as a command that raises nothing leaves it (10_state.md R25). -/
def quiet (st : Status) : Status :=
  { kindErr := false, sat := false, cmdErr := false, mref := st.mref, eref := st.eref,
    foldSkip := false, lastKind := st.lastKind }

/-- The legal command words as numbers (30_encoding.md R80, R82, R83). -/
def legalWord (w : Nat) : Prop :=
  w / 2 ^ 14 = 0 ∧
    ((w % 256 ∈ [0x00, 0x01, 0x02, 0x03, 0x04, 0x10, 0x11, 0x12, 0x13, 0x14, 0x16, 0x17, 0x18] ∧ bits w 8 6 = 0) ∨
     (w % 256 ∈ [0x05, 0x06] ∧ 2 ≤ bits w 8 6 ∧ bits w 8 6 ≤ 32) ∨
     (w % 256 = 0x15 ∧ bits w 8 6 ≤ 2))

/-- The mapped offsets (10_state.md R22). -/
def mapped : List Offset :=
  [0x000, 0x004, 0x008, 0x00C, 0x010, 0x014, 0x018, 0x01C, 0x020, 0x030, 0x034, 0x038, 0x03C, 0x040,
   0x050, 0x054, 0x058, 0x060, 0x064, 0x068, 0x080, 0x084, 0x088, 0x090, 0x094, 0x098, 0x09C,
   0x0A0, 0x0A4, 0x0A8, 0x0B0, 0x0B4, 0x0B8, 0x0BC, 0x0C0, 0x0C8, 0x0CC, 0x0D0, 0x0D4,
   0x0D8, 0x0DC, 0x0E0, 0x0E4, 0x0E8, 0x0FC]

/-- The read-only offsets (10_state.md R22, R49). -/
def readOnly : List Offset :=
  [0x004, 0x020, 0x094, 0x098, 0x09C, 0x0B0, 0x0B4, 0x0B8, 0x0BC, 0x0C0, 0x0C8, 0x0CC, 0x0D0, 0x0D4,
   0x0E8, 0x0FC]

/-- The offsets a host write stores all 32 bits to (10_state.md R22, R35). -/
def fullWidth : List Offset :=
  [0x008, 0x010, 0x014, 0x018, 0x01C, 0x030, 0x034, 0x038, 0x03C, 0x040, 0x050, 0x054, 0x058,
   0x060, 0x064, 0x068, 0x088, 0x090, 0x0A0, 0x0A4, 0x0A8, 0x0D8, 0x0DC, 0x0E0, 0x0E4]

/-- The offsets a command may write, STATUS apart (10_state.md R52). -/
def writes : Instr → List Offset
  | .nop => []
  | .encElec | .encMotion | .encSensor => [0x010, 0x014]
  | .dec => [0x008, 0x030, 0x034, 0x038, 0x03C, 0x040, 0x050, 0x054, 0x058, 0x060, 0x064, 0x068]
  | .smEnc _ | .smDec _ | .delta13 | .delta32 | .pulse2m => [0x020]
  | .accMotion => [0x094, 0x098, 0x09C, 0x0B0, 0x0B4, 0x0B8, 0x0BC]
  | .distUpd => [0x0B0, 0x0B4, 0x0B8]
  | .tripReset k =>
    if k = 0 then [0x0A0, 0x0B0] else if k = 1 then [0x0A4, 0x0B4] else if k = 2 then [0x0A8, 0x0B8] else []
  | .odoFold => [0x090, 0x094]
  | .accElec => [0x0C0, 0x0C8, 0x0CC, 0x0D0, 0x0D4]
  | .eFold => [0x0C8, 0x0CC, 0x0D0, 0x0D4, 0x0D8, 0x0DC, 0x0E0, 0x0E4, 0x0E8]

/-- An event that writes the word w to CMD. -/
def writesCmd (e : HostEvent) (w : Word) : Prop := e = .write .bits32 0x000 w

end Sys2Proof.Claims

open Sys2Proof.Claims

/-! ## Encoding and the step -/

/-- The words of 30_encoding.md R82, written out. -/
def Obligations.CommandWordsDecode : Prop :=
  decode 0x00000000 = .ok .nop ∧ decode 0x00000001 = .ok .encElec ∧ decode 0x00000002 = .ok .encMotion ∧
  decode 0x00000003 = .ok .encSensor ∧ decode 0x00000004 = .ok .dec ∧ decode 0x00000E05 = .ok (.smEnc 14) ∧
  decode 0x00000906 = .ok (.smDec 9) ∧ decode 0x00000010 = .ok .delta13 ∧ decode 0x00000011 = .ok .delta32 ∧
  decode 0x00000012 = .ok .pulse2m ∧ decode 0x00000013 = .ok .accMotion ∧ decode 0x00000014 = .ok .distUpd ∧
  decode 0x00000215 = .ok (.tripReset 2) ∧ decode 0x00000016 = .ok .odoFold ∧
  decode 0x00000017 = .ok .accElec ∧ decode 0x00000018 = .ok .eFold

/-- Decoding an encoded command gives it back exactly when it is well formed: every command, every value of its
argument (30_encoding.md R80 to R83). -/
def Obligations.DecodeEncodeRoundTrip : Prop :=
  ∀ i : Instr, decode (encode i) = .ok i ↔ i.wellFormed = true

/-- A word that decodes is the word of the command it decodes to: no two words name one command. -/
def Obligations.DecodedWordIsItsEncoding : Prop :=
  ∀ (w : Word) (i : Instr), decode w = .ok i → encode i = w ∧ i.wellFormed = true

/-- Which words are commands (30_encoding.md R83). -/
def Obligations.LegalWordsAreThoseOfTheMap : Prop :=
  ∀ w : Word, (∃ i, decode w = .ok i) ↔ legalWord w.toNat

/-- An illegal word clears the transient bits, sets CMD_ERR and changes no other register (30_encoding.md R88). -/
def Obligations.IllegalWordOnlySetsCmdErr : Prop :=
  ∀ (s : State) (w : Word) (rest : List HostEvent),
    s.pending = .write .bits32 0x000 w :: rest → ¬ legalWord w.toNat →
    step s = .next { s with pending := rest, status := { quiet s.status with cmdErr := true } }

/-- A step runs the decoded command: with a legal word as the next write to CMD, the step is exec of the command
on the state whose queue has moved on (20_memory.md R66). -/
def Obligations.StepRunsDecodedCommand : Prop :=
  ∀ (s : State) (w : Word) (i : Instr) (rest : List HostEvent),
    s.pending = .write .bits32 0x000 w :: rest → decode w = .ok i →
    step s = exec i { s with pending := rest }

/-- A step performs an aligned write: with a 32-bit write to any word offset as the next event, the step is the
host's write of that offset on the state whose queue has moved on (20_memory.md R70). What `hostWrite` does is said
by the statements about registers below. -/
def Obligations.StepPerformsTheAlignedWrite : Prop :=
  ∀ (s : State) (off : Offset) (v : Word) (rest : List HostEvent),
    s.pending = .write .bits32 off v :: rest → off.toNat % 4 = 0 →
    step s = hostWrite off v { s with pending := rest }

/-- A term outside 30_encoding.md R83 acts as the illegal word it encodes to: the model's choice (log entry 3),
so that exec and a write of the encoded word agree for every term. -/
def Obligations.ExecIsTheWriteOfTheEncodedWord : Prop :=
  ∀ (i : Instr) (s : State), runCommand (encode i) s = exec i s

/-- Each step takes exactly the next event from the queue; only a read adds a reply, and only one
(20_memory.md R70). Which event is taken when is the model's queue (log entries 1 and 2). -/
def Obligations.StepTakesOneEventInOrder : Prop :=
  ∀ (s t : State) (e : HostEvent) (rest : List HostEvent),
    s.pending = e :: rest → step s = .next t →
    t.pending = rest ∧
    ((∃ off, e = .read .bits32 off ∧ t.replies = s.replies ++ [s.readOffset off]) ∨
     ((∀ width off, e ≠ .read width off) ∧ t.replies = s.replies))

/-! ## STATUS -/

/-- STATUS as the host reads it (10_state.md R24), as a number. -/
def Obligations.StatusWordLayout : Prop :=
  ∀ s : State, (s.readOffset 0x004).toNat =
    s.status.kindErr.toNat + 2 * s.status.sat.toNat + 4 * s.status.cmdErr.toNat + 8 * s.status.mref.toNat +
    16 * s.status.eref.toNat + 32 * s.status.foldSkip.toNat + 256 * s.status.lastKind.toNat

/-- The transient bits describe the last command alone (10_state.md R25): a write to CMD, whatever the word,
gives the same state whatever the transient bits were, and it clears neither MREF nor EREF, nor does it change
LAST_KIND unless it is DEC. -/
def Obligations.TransientBitsDescribeTheLastCommand : Prop :=
  ∀ (s : State) (w : Word) (rest : List HostEvent) (b0 b1 b2 b5 : Bool),
    s.pending = .write .bits32 0x000 w :: rest →
    ∃ t, step s = .next t ∧
      step { s with status :=
        { s.status with kindErr := b0, sat := b1, cmdErr := b2, foldSkip := b5 } } = .next t ∧
      (s.status.mref = true → t.status.mref = true) ∧ (s.status.eref = true → t.status.eref = true) ∧
      (decode w ≠ .ok .dec → t.status.lastKind = s.status.lastKind)

/-- LAST_KIND is written only by DEC, which puts frame byte 0 there whether recognized or not; it resets to 0, and
0 is no recognized kind: decoding it raises KIND_ERR (10_state.md R26). -/
def Obligations.OnlyDecWritesLastKind : Prop :=
  (∀ (s t : State) (e : HostEvent) (rest : List HostEvent),
    s.pending = e :: rest → step s = .next t → e ≠ .reset → ¬ writesCmd e 0x00000004 →
    t.status.lastKind = s.status.lastKind) ∧
  (∀ s : State, ∃ t, exec .dec s = .next t ∧ t.status.lastKind.toNat = s.frameLo.toNat % 256 ∧
    (t.status.lastKind = 0 → t.status.kindErr = true)) ∧
  State.reset.status.lastKind = 0

/-- Only ACC_MOTION sets MREF and only ACC_ELEC sets EREF, and nothing but reset clears them
(10_state.md R27, its first three sentences). -/
def Obligations.ReferenceBitsOnlySetBySamples : Prop :=
  ∀ (s t : State) (e : HostEvent) (rest : List HostEvent),
    s.pending = e :: rest → step s = .next t → e ≠ .reset →
    (writesCmd e 0x00000013 → t.status.mref = true) ∧
    (¬ writesCmd e 0x00000013 → t.status.mref = s.status.mref) ∧
    (writesCmd e 0x00000017 → t.status.eref = true) ∧
    (¬ writesCmd e 0x00000017 → t.status.eref = s.status.eref)

/-- A legal command sets at most one transient bit, and each bit has its raisers (60_exceptions.md R181, R184). -/
def Obligations.OneOutcomePerCommand : Prop :=
  ∀ (i : Instr) (s t : State), i.wellFormed = true → exec i s = .next t →
    t.status.transientCount ≤ 1 ∧ t.status.cmdErr = false ∧
    (t.status.kindErr = true → i = .dec) ∧
    (t.status.sat = true → i = .encElec ∨ i = .encSensor ∨ ∃ n, i = .smEnc n) ∧
    (t.status.foldSkip = true → i = .eFold)

/-! ## The host's reads and writes -/

/-- Which register stands at which offset (10_state.md R22), bits the spec does not use reading 0. -/
def Obligations.ReadsShowTheRegisterMap : Prop :=
  ∀ s : State,
    s.readOffset 0x000 = 0 ∧ s.readOffset 0x008 = s.decErrCnt ∧
    (s.readOffset 0x00C).toNat = s.currInv.toNat ∧
    s.readOffset 0x010 = s.frameLo ∧ s.readOffset 0x014 = s.frameHi ∧
    s.readOffset 0x018 = s.argA ∧ s.readOffset 0x01C = s.argB ∧ s.readOffset 0x020 = s.result ∧
    s.readOffset 0x030 = s.eTs ∧ s.readOffset 0x034 = s.eVolt ∧ s.readOffset 0x038 = s.eCurr ∧
    s.readOffset 0x03C = s.eFaults ∧ s.readOffset 0x040 = s.eSeq ∧
    s.readOffset 0x050 = s.mTs ∧ s.readOffset 0x054 = s.mPulses ∧ s.readOffset 0x058 = s.mSeq ∧
    s.readOffset 0x060 = s.sT0 ∧ s.readOffset 0x064 = s.sT1 ∧ s.readOffset 0x068 = s.sT2 ∧
    (s.readOffset 0x080).toNat = s.ppr.toNat ∧ (s.readOffset 0x084).toNat = s.mmpr.toNat ∧
    s.readOffset 0x088 = s.minTravelM ∧
    s.readOffset 0x090 = s.odoBase ∧ s.readOffset 0x094 = s.odoRun ∧ s.readOffset 0x098 = s.pulseRef ∧
    (s.readOffset 0x09C).toNat = s.mTsRef.toNat ∧
    s.readOffset 0x0A0 = s.trip0 ∧ s.readOffset 0x0A4 = s.trip1 ∧ s.readOffset 0x0A8 = s.trip2 ∧
    s.readOffset 0x0B0 = s.dist0 ∧ s.readOffset 0x0B4 = s.dist1 ∧ s.readOffset 0x0B8 = s.dist2 ∧
    s.readOffset 0x0BC = s.speed ∧ (s.readOffset 0x0C0).toNat = s.eTsRef.toNat ∧
    (s.readOffset 0x0C8).toNat + 2 ^ 32 * (s.readOffset 0x0CC).toNat = s.eaccC.toNat ∧
    (s.readOffset 0x0D0).toNat + 2 ^ 32 * (s.readOffset 0x0D4).toNat = s.eaccR.toNat ∧
    (s.readOffset 0x0D8).toNat + 2 ^ 32 * (s.readOffset 0x0DC).toNat = s.etotC.toNat ∧
    (s.readOffset 0x0E0).toNat + 2 ^ 32 * (s.readOffset 0x0E4).toNat = s.etotR.toNat ∧
    s.readOffset 0x0E8 = s.norm

/-- ID reads its constant in every state, and a write to it changes nothing (10_state.md R23). -/
def Obligations.IdIsConstant : Prop :=
  ∀ s : State, s.readOffset 0x0FC = 0x0FCA0007 ∧ ∀ v, hostWrite 0x0FC v s = .next s

/-- Reset sets every register to its reset value, and State.reset has those values: 0 but for PPR, MMPR and ID
(10_state.md R55). -/
def Obligations.ResetValueOfEveryRegister : Prop :=
  (∀ off : Offset, State.reset.readOffset off =
    if off = 0x080 ∨ off = 0x084 then 1 else if off = 0x0FC then 0x0FCA0007 else 0) ∧
  (∀ (s : State) (rest : List HostEvent), s.pending = .reset :: rest →
    ∃ t, step s = .next t ∧ ∀ off, t.readOffset off = State.reset.readOffset off)

/-- A reserved offset reads 0 and ignores writes, and so do the reserved bits of the listed registers
(10_state.md R48). -/
def Obligations.ReservedOffsetsAndBits : Prop :=
  (∀ (s : State) (off : Offset) (v : Word), off ∉ mapped →
    s.readOffset off = 0 ∧ hostWrite off v s = .next s) ∧
  (∀ s : State,
    bits (s.readOffset 0x004).toNat 6 2 = 0 ∧ bits (s.readOffset 0x004).toNat 16 16 = 0 ∧
    bits (s.readOffset 0x00C).toNat 1 31 = 0 ∧ bits (s.readOffset 0x080).toNat 16 16 = 0 ∧
    bits (s.readOffset 0x084).toNat 16 16 = 0 ∧ bits (s.readOffset 0x09C).toNat 13 19 = 0 ∧
    bits (s.readOffset 0x0C0).toNat 13 19 = 0) ∧
  (∀ (s : State) (v v' : Word),
    hostWrite 0x004 v s = .next s ∧ hostWrite 0x09C v s = .next s ∧ hostWrite 0x0C0 v s = .next s ∧
    (bits v.toNat 0 1 = bits v'.toNat 0 1 → hostWrite 0x00C v s = hostWrite 0x00C v' s) ∧
    (bits v.toNat 0 16 = bits v'.toNat 0 16 →
      hostWrite 0x080 v s = hostWrite 0x080 v' s ∧ hostWrite 0x084 v s = hostWrite 0x084 v' s))

/-- A host write to a read-only register is ignored, a read of CMD returns 0, and no read changes a register
(10_state.md R49). -/
def Obligations.ReadOnlyAndSideEffectFreeReads : Prop :=
  (∀ (s : State) (off : Offset) (v : Word), off ∈ readOnly → hostWrite off v s = .next s) ∧
  (∀ s : State, s.readOffset 0x000 = 0) ∧
  (∀ (s t : State) (width : AccessWidth) (off : Offset) (rest : List HostEvent),
    s.pending = .read width off :: rest → step s = .next t →
    t = { s with pending := rest, replies := s.replies ++ [s.readOffset off] })

/-- A host write to a full 32-bit register reads back whole and changes no other offset: in particular one half
of ETOT_C or ETOT_R changes only that half (10_state.md R22, R35; 20_memory.md R67). -/
def Obligations.HostWriteReadsBackAndFrames : Prop :=
  ∀ (s : State) (off : Offset) (v : Word) (rest : List HostEvent),
    off ∈ fullWidth → s.pending = .write .bits32 off v :: rest →
    ∃ t, step s = .next t ∧ t.readOffset off = v ∧
      (∀ off', off' ≠ off → t.readOffset off' = s.readOffset off') ∧
      t.pending = rest ∧ t.replies = s.replies

/-- PPR and MMPR are write-any-read-legal (10_state.md R36): a nonzero low half is stored, a zero one is ignored,
bits 31:16 never count, and no other offset changes; both are 1 at reset, and no step makes a nonzero one zero. -/
def Obligations.PprAndMmprIgnoreZero : Prop :=
  (∀ (s : State) (off : Offset) (v : Word), off = 0x080 ∨ off = 0x084 →
    ∃ t, hostWrite off v s = .next t ∧ (t.readOffset off).toNat < 2 ^ 16 ∧
      (v.toNat % 2 ^ 16 ≠ 0 → (t.readOffset off).toNat = v.toNat % 2 ^ 16) ∧
      (v.toNat % 2 ^ 16 = 0 → t.readOffset off = s.readOffset off) ∧
      (∀ off', off' ≠ off → t.readOffset off' = s.readOffset off') ∧
      t.pending = s.pending ∧ t.replies = s.replies) ∧
  (∀ off : Offset, off = 0x080 ∨ off = 0x084 → State.reset.readOffset off = 1 ∧
    ∀ s t : State, step s = .next t → s.readOffset off ≠ 0 → t.readOffset off ≠ 0)

/-- CFG keeps bit 0 of a write and no other bit, and no other offset changes (10_state.md R29, storage part). -/
def Obligations.CfgKeepsOnlyBitZero : Prop :=
  ∀ (s : State) (v : Word), ∃ t, hostWrite 0x00C v s = .next t ∧
    (t.readOffset 0x00C).toNat = v.toNat % 2 ∧
    (∀ off, off ≠ 0x00C → t.readOffset off = s.readOffset off) ∧
    t.pending = s.pending ∧ t.replies = s.replies

/-- Accesses of 8 or 16 bits and misaligned 32-bit accesses are refused (20_memory.md R61, R62). That an access of
8 or 16 bits at a misaligned offset, which falls under both rules, is refused under the name of the first is the
model's choice (log entry 7). -/
def Obligations.UndefinedAccessesAreRefused : Prop :=
  ∀ (s : State) (off : Offset) (v : Word) (rest : List HostEvent),
    (∀ width, width = .bits8 ∨ width = .bits16 →
      (s.pending = .read width off :: rest → step s = .refused .subWordAccess) ∧
      (s.pending = .write width off v :: rest → step s = .refused .subWordAccess)) ∧
    (off.toNat % 4 ≠ 0 →
      (s.pending = .read .bits32 off :: rest → step s = .refused .misalignedAccess) ∧
      (s.pending = .write .bits32 off v :: rest → step s = .refused .misalignedAccess))

/-- FCA never halts (60_exceptions.md R194): every defined event completes, from every state. The second clause is
the model's choice (log entry 1): a step with no event pending changes nothing. -/
def Obligations.EveryDefinedEventCompletes : Prop :=
  (∀ (s : State) (e : HostEvent) (rest : List HostEvent), s.pending = e :: rest →
    e.defined = true → ∃ t, step s = .next t) ∧
  (∀ s : State, s.pending = [] → step s = .next s)

/-- A run over a queue of defined events reaches its end, with one reply for each read (60_exceptions.md R194;
20_memory.md R65, R70). The queue, the replies, and that a reset event keeps both are the model's choice (log entries
1, 2 and 8). -/
def Obligations.SafeQueueRunsToItsEnd : Prop :=
  ∀ s : State, s.safeQueue →
    ∃ t, Sys2Proof.core.run s.pending.length s = .next t ∧ t.pending = [] ∧
      t.replies.length = s.replies.length +
        (s.pending.filter fun e => match e with | .read _ _ => true | _ => false).length

/-! ## What a command writes -/

/-- Which command writes what (10_state.md R52): every offset a command is not listed for reads as before, STATUS
apart, and the host's side of the bus is untouched. -/
def Obligations.CommandsWriteOnlyTheirRegisters : Prop :=
  ∀ (i : Instr) (s t : State), exec i s = .next t →
    (∀ off : Offset, off ∉ writes i → off ≠ 0x004 → t.readOffset off = s.readOffset off) ∧
    t.pending = s.pending ∧ t.replies = s.replies

/-- Derived outputs go stale (70_reset_and_hazards.md R211): between resets DIST0..2 change only by ACC_MOTION,
DIST_UPD or (DISTk alone) TRIP_RESET k, SPEED only by ACC_MOTION, NORM only by an E_FOLD that folds. -/
def Obligations.DerivedOutputsChangeOnlyByTheirCommands : Prop :=
  ∀ (s t : State) (e : HostEvent) (rest : List HostEvent),
    s.pending = e :: rest → step s = .next t → e ≠ .reset →
    (t.dist0 ≠ s.dist0 → writesCmd e 0x13 ∨ writesCmd e 0x14 ∨ writesCmd e 0x015) ∧
    (t.dist1 ≠ s.dist1 → writesCmd e 0x13 ∨ writesCmd e 0x14 ∨ writesCmd e 0x115) ∧
    (t.dist2 ≠ s.dist2 → writesCmd e 0x13 ∨ writesCmd e 0x14 ∨ writesCmd e 0x215) ∧
    (t.speed ≠ s.speed → writesCmd e 0x13) ∧
    (t.norm ≠ s.norm → writesCmd e 0x18 ∧ s.minTravelM.toNat < s.argA.toNat)

/-! ## Codec results -/

/-- NOP (40_codec.md R127). -/
def Obligations.NopOnlyClearsTransientBits : Prop :=
  encode .nop = 0x00000000 ∧ ∀ s : State, exec .nop s = .next { s with status := quiet s.status }

/-- ENC_ELEC (40_codec.md R113, R114): the frame as a number, SAT, and nothing else. -/
def Obligations.EncElecBuildsTheElectricFrame : Prop :=
  encode .encElec = 0x00000001 ∧
  ∀ s : State, ∃ t, exec .encElec s = .next t ∧
    frameNat t = 1 + 2 ^ 8 * (s.eTs.toNat % 2 ^ 13) + 2 ^ 21 * min s.eVolt.toNat 1023 +
      2 ^ 31 * smCode s.eCurr.toInt 14 + 2 ^ 45 * (s.eFaults.toNat % 2 ^ 11) +
      2 ^ 56 * (s.eSeq.toNat % 2 ^ 8) ∧
    t = { s with
      frameLo := t.frameLo, frameHi := t.frameHi
      status := { quiet s.status with
        sat := decide (1023 < s.eVolt.toNat) || decide (8191 < s.eCurr.toInt.natAbs) } }

/-- ENC_MOTION (40_codec.md R116): the frame as a number, no SAT, and nothing else. -/
def Obligations.EncMotionBuildsTheMotionFrame : Prop :=
  encode .encMotion = 0x00000002 ∧
  ∀ s : State, ∃ t, exec .encMotion s = .next t ∧
    frameNat t = 2 + 2 ^ 8 * (s.mTs.toNat % 2 ^ 13) + 2 ^ 21 * s.mPulses.toNat +
      2 ^ 53 * (s.mSeq.toNat % 2 ^ 8) ∧
    t = { s with frameLo := t.frameLo, frameHi := t.frameHi, status := quiet s.status }

/-- ENC_SENSOR (40_codec.md R119): the frame as a number, SAT, and nothing else. -/
def Obligations.EncSensorBuildsTheSensorFrame : Prop :=
  encode .encSensor = 0x00000003 ∧
  ∀ s : State, ∃ t, exec .encSensor s = .next t ∧
    frameNat t = 3 + 2 ^ 8 * smCode s.sT0.toInt 9 + 2 ^ 17 * smCode s.sT1.toInt 9 +
      2 ^ 26 * smCode s.sT2.toInt 9 ∧
    t = { s with
      frameLo := t.frameLo, frameHi := t.frameHi
      status := { quiet s.status with
        sat := decide (255 < s.sT0.toInt.natAbs) || decide (255 < s.sT1.toInt.natAbs) ||
          decide (255 < s.sT2.toInt.natAbs) } }

/-- DEC of an Electric frame (40_codec.md R120, R121). -/
def Obligations.DecUnpacksElectric : Prop :=
  ∀ s : State, frameNat s % 256 = 1 → ∃ t, exec .dec s = .next t ∧
    t.eTs.toNat = bits (frameNat s) 8 13 ∧ t.eVolt.toNat = bits (frameNat s) 21 10 ∧
    t.eCurr.toInt = smInt (bits (frameNat s) 31 14) 14 ∧
    t.eFaults.toNat = bits (frameNat s) 45 11 ∧ t.eSeq.toNat = bits (frameNat s) 56 8 ∧
    t = { s with
      status := { quiet s.status with lastKind := 1 }
      eTs := t.eTs, eVolt := t.eVolt, eCurr := t.eCurr, eFaults := t.eFaults, eSeq := t.eSeq }

/-- DEC of a Motion frame (40_codec.md R120, R122). -/
def Obligations.DecUnpacksMotion : Prop :=
  ∀ s : State, frameNat s % 256 = 2 → ∃ t, exec .dec s = .next t ∧
    t.mTs.toNat = bits (frameNat s) 8 13 ∧ t.mPulses.toNat = bits (frameNat s) 21 32 ∧
    t.mSeq.toNat = bits (frameNat s) 53 8 ∧
    t = { s with
      status := { quiet s.status with lastKind := 2 }
      mTs := t.mTs, mPulses := t.mPulses, mSeq := t.mSeq }

/-- DEC of a SensorBlock frame (40_codec.md R120, R123). -/
def Obligations.DecUnpacksSensor : Prop :=
  ∀ s : State, frameNat s % 256 = 3 → ∃ t, exec .dec s = .next t ∧
    t.sT0.toInt = smInt (bits (frameNat s) 8 9) 9 ∧ t.sT1.toInt = smInt (bits (frameNat s) 17 9) 9 ∧
    t.sT2.toInt = smInt (bits (frameNat s) 26 9) 9 ∧
    t = { s with
      status := { quiet s.status with lastKind := 3 }
      sT0 := t.sT0, sT1 := t.sT1, sT2 := t.sT2 }

/-- DEC of any other kind: flagged, counted modulo 2^32, and no field register changes (40_codec.md R124). -/
def Obligations.DecCountsUnrecognizedKinds : Prop :=
  ∀ s : State, frameNat s % 256 ≠ 1 → frameNat s % 256 ≠ 2 → frameNat s % 256 ≠ 3 →
    ∃ t, exec .dec s = .next t ∧
      t.decErrCnt.toNat = (s.decErrCnt.toNat + 1) % 2 ^ 32 ∧
      t.status.lastKind.toNat = frameNat s % 256 ∧
      t = { s with
        decErrCnt := t.decErrCnt
        status := { quiet s.status with kindErr := true, lastKind := t.status.lastKind } }

/-- SM_ENC N (40_codec.md R125) at every legal width; the word of any other width is illegal. -/
def Obligations.SmEncEncodesWithSaturation : Prop :=
  (∀ n : Arg, n.toNat < 2 ∨ 32 < n.toNat → ¬ ∃ i, decode (0x00000005 + 256 * n.setWidth 32) = .ok i) ∧
  ∀ (n : Arg) (s : State), 2 ≤ n.toNat → n.toNat ≤ 32 →
    encode (.smEnc n) = 0x00000005 + 256 * n.setWidth 32 ∧
    ∃ t, exec (.smEnc n) s = .next t ∧ t.result.toNat = smCode s.argA.toInt n.toNat ∧
      t = { s with
        result := t.result
        status := { quiet s.status with sat := smTooBig s.argA.toInt n.toNat } }

/-- SM_DEC N (40_codec.md R126) at every legal width; bits 31:N of ARG_A are ignored. -/
def Obligations.SmDecDecodesItsLowBits : Prop :=
  ∀ (n : Arg) (s : State), 2 ≤ n.toNat → n.toNat ≤ 32 →
    encode (.smDec n) = 0x00000006 + 256 * n.setWidth 32 ∧
    ∃ t, exec (.smDec n) s = .next t ∧
      t.result.toInt = smInt (s.argA.toNat % 2 ^ n.toNat) n.toNat ∧
      t = { s with result := t.result, status := quiet s.status }

/-- The round-trip laws of the sign-magnitude primitives (40_codec.md R112), said of the two functions for every
integer and of the commands: SM_DEC of what SM_ENC made gives the value back, saturated with its sign kept when it
does not fit; the two zeros decode to 0; no two other patterns of N bits decode alike, and every integer in range is
the decoding of one. -/
def Obligations.SignMagnitudeRoundTrip : Prop :=
  ∀ n : Arg, 2 ≤ n.toNat → n.toNat ≤ 32 →
    (∀ v : Int,
      (v.natAbs ≤ 2 ^ (n.toNat - 1) - 1 →
        smdec (smencPattern v n.toNat) n.toNat = v ∧ smencSat v n.toNat = false) ∧
      (v.natAbs > 2 ^ (n.toNat - 1) - 1 →
        smdec (smencPattern v n.toNat) n.toNat = v.sign * (2 ^ (n.toNat - 1) - 1 : Nat) ∧
        smencSat v n.toNat = true)) ∧
    (∀ s : State, ∃ t u, exec (.smEnc n) s = .next t ∧
      exec (.smDec n) { t with argA := t.result } = .next u ∧
      (s.argA.toInt.natAbs ≤ 2 ^ (n.toNat - 1) - 1 → u.result = s.argA ∧ t.status.sat = false) ∧
      (s.argA.toInt.natAbs > 2 ^ (n.toNat - 1) - 1 →
        u.result.toInt = s.argA.toInt.sign * (2 ^ (n.toNat - 1) - 1 : Nat) ∧ t.status.sat = true)) ∧
    (∀ s : State, s.argA.toNat = 2 ^ (n.toNat - 1) ∨ s.argA = 0 →
      ∃ u, exec (.smDec n) s = .next u ∧ u.result = 0) ∧
    (∀ s s' u u' : State, exec (.smDec n) s = .next u → exec (.smDec n) s' = .next u' →
      s.argA.toNat < 2 ^ n.toNat → s'.argA.toNat < 2 ^ n.toNat →
      s.argA.toNat ≠ 2 ^ (n.toNat - 1) → s'.argA.toNat ≠ 2 ^ (n.toNat - 1) →
      u.result = u'.result → s.argA = s'.argA) ∧
    (∀ v : Int, v.natAbs ≤ 2 ^ (n.toNat - 1) - 1 → ∀ s : State, ∃ b : Word,
      b.toNat < 2 ^ n.toNat ∧ b.toNat ≠ 2 ^ (n.toNat - 1) ∧
      ∃ u, exec (.smDec n) { s with argA := b } = .next u ∧ u.result.toInt = v)

/-- DEC on the frame ENC_ELEC has just written returns the encoder's inputs as reduced: timestamp modulo 8192,
voltage and current saturated, faults truncated, sequence id modulo 256 (40_codec.md R120). -/
def Obligations.ElectricFrameRoundTrip : Prop :=
  ∀ s : State, ∃ t u, exec .encElec s = .next t ∧ exec .dec t = .next u ∧
    u.eTs.toNat = s.eTs.toNat % 8192 ∧ u.eVolt.toNat = min s.eVolt.toNat 1023 ∧
    u.eCurr.toInt = max (-8191) (min 8191 s.eCurr.toInt) ∧
    u.eFaults.toNat = s.eFaults.toNat % 2048 ∧ u.eSeq.toNat = s.eSeq.toNat % 256 ∧
    u.status = { quiet s.status with lastKind := 1 }

/-- The same for Motion and SensorBlock frames: the pulse count is carried exactly, temperatures saturate at
255 (40_codec.md R120). -/
def Obligations.MotionAndSensorFrameRoundTrip : Prop :=
  (∀ s : State, ∃ t u, exec .encMotion s = .next t ∧ exec .dec t = .next u ∧
    u.mTs.toNat = s.mTs.toNat % 8192 ∧ u.mPulses = s.mPulses ∧ u.mSeq.toNat = s.mSeq.toNat % 256 ∧
    u.status = { quiet s.status with lastKind := 2 }) ∧
  (∀ s : State, ∃ t u, exec .encSensor s = .next t ∧ exec .dec t = .next u ∧
    u.sT0.toInt = max (-255) (min 255 s.sT0.toInt) ∧ u.sT1.toInt = max (-255) (min 255 s.sT1.toInt) ∧
    u.sT2.toInt = max (-255) (min 255 s.sT2.toInt) ∧
    u.status = { quiet s.status with lastKind := 3 })

/-- Reserved and unassigned payload bits are written 0 and ignored (30_encoding.md R95): a Motion frame decodes
alike whatever its bits 63:61, a SensorBlock frame whatever its bits 63:35, while the Electric faults field is
carried. -/
def Obligations.ReservedPayloadBitsAreIgnored : Prop :=
  (∀ (s : State) (hi : Word), frameNat s % 256 = 2 → hi.toNat % 2 ^ 29 = s.frameHi.toNat % 2 ^ 29 →
    ∃ t, exec .dec s = .next t ∧ exec .dec { s with frameHi := hi } = .next { t with frameHi := hi }) ∧
  (∀ (s : State) (hi : Word), frameNat s % 256 = 3 → hi.toNat % 2 ^ 3 = s.frameHi.toNat % 2 ^ 3 →
    ∃ t, exec .dec s = .next t ∧ exec .dec { s with frameHi := hi } = .next { t with frameHi := hi }) ∧
  (∀ s : State, ∃ t, exec .encMotion s = .next t ∧ frameNat t < 2 ^ 61) ∧
  (∀ s : State, ∃ t, exec .encSensor s = .next t ∧ frameNat t < 2 ^ 35) ∧
  (∀ s : State, frameNat s % 256 = 1 → ∃ t, exec .dec s = .next t ∧ t.eFaults.toNat = bits (frameNat s) 45 11)

/-! ## Accumulator results -/

/-- DELTA13 (41_accumulator.md R145). -/
def Obligations.Delta13SubtractsModulo8192 : Prop :=
  encode .delta13 = 0x00000010 ∧
  ∀ s : State, ∃ t, exec .delta13 s = .next t ∧
    (t.result.toNat : Int) = ((s.argB.toNat : Int) - s.argA.toNat) % 8192 ∧
    t = { s with result := t.result, status := quiet s.status }

/-- DELTA32 (41_accumulator.md R146). -/
def Obligations.Delta32SubtractsModulo2Pow32 : Prop :=
  encode .delta32 = 0x00000011 ∧
  ∀ s : State, ∃ t, exec .delta32 s = .next t ∧
    (t.result.toNat : Int) = ((s.argB.toNat : Int) - s.argA.toNat) % 2 ^ 32 ∧
    t = { s with result := t.result, status := quiet s.status }

/-- PULSE2M (41_accumulator.md R147), with the order switch where the product stops fitting 32 bits. -/
def Obligations.Pulse2mConvertsToMetres : Prop :=
  encode .pulse2m = 0x00000012 ∧
  ∀ s : State, 1 ≤ s.ppr.toNat → 1 ≤ s.mmpr.toNat → ∃ t, exec .pulse2m s = .next t ∧
    t.result.toNat = millimetres s s.argA.toNat / 1000 % 2 ^ 32 ∧
    t = { s with result := t.result, status := quiet s.status }

/-- The threshold T is the largest p whose product with MMPR fits 32 unsigned bits (41_accumulator.md R143). -/
def Obligations.SafeMulThresholdIsTheLargest : Prop :=
  ∀ mmpr : BitVec 16, 1 ≤ mmpr.toNat →
    safeMulThreshold mmpr = (2 ^ 32 - 1) / mmpr.toNat ∧
    (∀ p : Nat, p ≤ safeMulThreshold mmpr ↔ p * mmpr.toNat < 2 ^ 32) ∧
    safeMulThreshold 1830 = 2346976

/-- mm(p) multiplies first up to T and divides first above it, an exact integer below 2^48; metres are its wrapped
thousandth, and wrap only in configurations with MMPR > 1000 × PPR (41_accumulator.md R142, R144). -/
def Obligations.MetresWrapOnlyForLongRevolutions : Prop :=
  ∀ (ppr mmpr : BitVec 16) (p : Word), 1 ≤ ppr.toNat → 1 ≤ mmpr.toNat →
    (p.toNat ≤ (2 ^ 32 - 1) / mmpr.toNat → mm ppr mmpr p = p.toNat * mmpr.toNat / ppr.toNat) ∧
    ((2 ^ 32 - 1) / mmpr.toNat < p.toNat → mm ppr mmpr p = p.toNat / ppr.toNat * mmpr.toNat) ∧
    mm ppr mmpr p < 2 ^ 48 ∧
    (meters ppr mmpr p).toNat = mm ppr mmpr p / 1000 % 2 ^ 32 ∧
    (mmpr.toNat ≤ 1000 * ppr.toNat → (meters ppr mmpr p).toNat = mm ppr mmpr p / 1000)

/-- Precision of the order switch (41_accumulator.md R148): above T the result is below the exact quotient by less
than MMPR millimetres; in metres the two orders differ by at most (MMPR - 1) div 1000 + 1; across T the result
may step back, by less than MMPR. -/
def Obligations.PrecisionOfTheOrderSwitch : Prop :=
  ∀ (ppr mmpr : BitVec 16) (p : Word), 1 ≤ ppr.toNat → 1 ≤ mmpr.toNat →
    (safeMulThreshold mmpr < p.toNat →
      mm ppr mmpr p * ppr.toNat ≤ p.toNat * mmpr.toNat ∧
      p.toNat * mmpr.toNat < (mm ppr mmpr p + mmpr.toNat) * ppr.toNat) ∧
    (p.toNat / ppr.toNat * mmpr.toNat / 1000 ≤ p.toNat * mmpr.toNat / ppr.toNat / 1000 ∧
      p.toNat * mmpr.toNat / ppr.toNat / 1000 ≤
        p.toNat / ppr.toNat * mmpr.toNat / 1000 + ((mmpr.toNat - 1) / 1000 + 1)) ∧
    (p.toNat = safeMulThreshold mmpr → p.toNat + 1 < 2 ^ 32 →
      mm ppr mmpr p < mm ppr mmpr (p + 1) + mmpr.toNat) ∧
    (∃ (ppr' mmpr' : BitVec 16) (p' : Word), 1 ≤ ppr'.toNat ∧ 1 ≤ mmpr'.toNat ∧
      p'.toNat = safeMulThreshold mmpr' ∧ p'.toNat + 1 < 2 ^ 32 ∧
      mm ppr' mmpr' (p' + 1) < mm ppr' mmpr' p')

/-- ACC_MOTION (41_accumulator.md R150 to R152, R154): the first sample since reset only sets the reference; every
later one adds the wrapped pulse delta and computes the speed; the distances follow the new total. -/
def Obligations.AccMotionAppliesOneSample : Prop :=
  encode .accMotion = 0x00000013 ∧
  ∀ s : State, 1 ≤ s.ppr.toNat → 1 ≤ s.mmpr.toNat → ∃ t, exec .accMotion s = .next t ∧
    (s.status.mref = false → t.odoRun = s.odoRun ∧ t.speed = 0) ∧
    (s.status.mref = true → ∃ dp dt : Nat, dp < 2 ^ 32 ∧ dt < 8192 ∧
      (dp : Int) = ((s.mPulses.toNat : Int) - s.pulseRef.toNat) % 2 ^ 32 ∧
      (dt : Int) = ((s.mTs.toNat : Int) - s.mTsRef.toNat) % 8192 ∧
      t.odoRun.toNat = (s.odoRun.toNat + dp) % 2 ^ 32 ∧
      t.speed.toNat = min (36 * millimetres s dp / max dt 1) (2 ^ 32 - 1)) ∧
    t.mTsRef.toNat = s.mTs.toNat % 8192 ∧
    t.dist0.toNat = distance t s.trip0 ∧ t.dist1.toNat = distance t s.trip1 ∧
    t.dist2.toNat = distance t s.trip2 ∧
    t = { s with
      odoRun := t.odoRun, pulseRef := s.mPulses, mTsRef := t.mTsRef, speed := t.speed
      dist0 := t.dist0, dist1 := t.dist1, dist2 := t.dist2
      status := { quiet s.status with mref := true } }

/-- DIST_UPD (41_accumulator.md R153, R154). -/
def Obligations.DistUpdRecomputesTheDistances : Prop :=
  encode .distUpd = 0x00000014 ∧
  ∀ s : State, 1 ≤ s.ppr.toNat → 1 ≤ s.mmpr.toNat → ∃ t, exec .distUpd s = .next t ∧
    t.dist0.toNat = distance s s.trip0 ∧ t.dist1.toNat = distance s s.trip1 ∧
    t.dist2.toNat = distance s s.trip2 ∧
    t = { s with dist0 := t.dist0, dist1 := t.dist1, dist2 := t.dist2, status := quiet s.status }

/-- TRIP_RESET k (41_accumulator.md R156) for each of the three counters: baseline to the wrapped total, distance
to 0, the other two untouched; right after it DIST_UPD still gives 0 for that counter; any other k is illegal. -/
def Obligations.TripResetStartsOneCounterAgain : Prop :=
  encode (.tripReset 0) = 0x00000015 ∧ encode (.tripReset 1) = 0x00000115 ∧
  encode (.tripReset 2) = 0x00000215 ∧
  (∀ k : Arg, 2 < k.toNat → ¬ ∃ i, decode (0x00000015 + 256 * k.setWidth 32) = .ok i) ∧
  ∀ s : State,
    (∃ t u, exec (.tripReset 0) s = .next t ∧ t.trip0.toNat = totalPulses s ∧
      t = { s with trip0 := t.trip0, dist0 := 0, status := quiet s.status } ∧
      exec .distUpd t = .next u ∧ u.dist0 = 0) ∧
    (∃ t u, exec (.tripReset 1) s = .next t ∧ t.trip1.toNat = totalPulses s ∧
      t = { s with trip1 := t.trip1, dist1 := 0, status := quiet s.status } ∧
      exec .distUpd t = .next u ∧ u.dist1 = 0) ∧
    (∃ t u, exec (.tripReset 2) s = .next t ∧ t.trip2.toNat = totalPulses s ∧
      t = { s with trip2 := t.trip2, dist2 := 0, status := quiet s.status } ∧
      exec .distUpd t = .next u ∧ u.dist2 = 0)

/-- ODO_FOLD (41_accumulator.md R157). -/
def Obligations.OdoFoldMovesTheRuntimePulses : Prop :=
  encode .odoFold = 0x00000016 ∧
  ∀ s : State, ∃ t, exec .odoFold s = .next t ∧
    t.odoBase.toNat = (s.odoBase.toNat + s.odoRun.toNat) % 2 ^ 32 ∧
    t = { s with odoBase := t.odoBase, odoRun := 0, status := quiet s.status }

/-- The fold invariant (41_accumulator.md R158): ODO_FOLD leaves the wrapped total, every trip count and every
distance unchanged, so DIST_UPD, or the next Motion sample, gives the same distances with a fold before it as
without. -/
def Obligations.FoldLeavesEveryDistance : Prop :=
  ∀ s : State, ∃ t, exec .odoFold s = .next t ∧
    totalPulses t = totalPulses s ∧
    t.trip0 = s.trip0 ∧ t.trip1 = s.trip1 ∧ t.trip2 = s.trip2 ∧
    t.dist0 = s.dist0 ∧ t.dist1 = s.dist1 ∧ t.dist2 = s.dist2 ∧
    (∀ i : Instr, i = .distUpd ∨ i = .accMotion → ∃ u v, exec i s = .next u ∧ exec i t = .next v ∧
      v.dist0 = u.dist0 ∧ v.dist1 = u.dist1 ∧ v.dist2 = u.dist2 ∧ totalPulses v = totalPulses u)

/-- Saving and restoring (70_reset_and_hazards.md R205, R207): run the save sequence (fold, then read), then a reset
and the boot sequence with the same configuration and the words the save read; the block then shows the distances
DIST_UPD would have shown before, and the energy totals it had. The host's queue and replies, which a reset keeps, are
the model's choice (log entries 1, 2 and 8). -/
def Obligations.SaveThenBootReproducesEveryDistance : Prop :=
  ∀ s : State, 1 ≤ s.ppr.toNat → 1 ≤ s.mmpr.toNat →
    ∃ (t u v : State) (base trip0 trip1 trip2 cLo cHi rLo rHi : Word), exec .distUpd s = .next u ∧
    Sys2Proof.core.run 9 { s with pending := saveProgram, replies := [] } = .next t ∧
    t.pending = [] ∧ t.replies = [base, trip0, trip1, trip2, cLo, cHi, rLo, rHi] ∧
    Sys2Proof.core.run 14
      { t with
        pending := .reset :: bootProgram s.ppr.toNat s.mmpr.toNat s.currInv.toNat s.minTravelM.toNat
          base.toNat trip0.toNat trip1.toNat trip2.toNat (cHi ++ cLo) (rHi ++ rLo) } = .next v ∧
    v.dist0 = u.dist0 ∧ v.dist1 = u.dist1 ∧ v.dist2 = u.dist2 ∧ v.etotC = s.etotC ∧ v.etotR = s.etotR ∧
    v.pending = []

/-- ACC_ELEC (41_accumulator.md R160): no energy for the first sample since reset; later ones add
voltage × |current| × time to the consumed sum, the recovered sum or neither, by the sign of the current under
CURR_INV. -/
def Obligations.AccElecIntegratesOneSample : Prop :=
  encode .accElec = 0x00000017 ∧
  ∀ s : State, ∃ (t : State) (dt : Nat) (i : Int), exec .accElec s = .next t ∧
    (s.status.eref = false → dt = 0) ∧
    (s.status.eref = true → (dt : Int) = ((s.eTs.toNat : Int) - s.eTsRef.toNat) % 8192) ∧
    i = (if s.currInv then -1 else 1) * s.eCurr.toInt ∧
    t.eaccC.toNat = (s.eaccC.toNat + if i > 0 then s.eVolt.toNat * i.natAbs * dt else 0) % 2 ^ 64 ∧
    t.eaccR.toNat = (s.eaccR.toNat + if i < 0 then s.eVolt.toNat * i.natAbs * dt else 0) % 2 ^ 64 ∧
    t.eTsRef.toNat = s.eTs.toNat % 8192 ∧
    t = { s with
      eTsRef := t.eTsRef, eaccC := t.eaccC, eaccR := t.eaccR
      status := { quiet s.status with eref := true } }

/-- The energy split (41_accumulator.md R162): positive effective current never changes EACC_R, negative never
EACC_C, zero neither; and the one it belongs to does change when the voltage and the time are positive and the
energy fits 64 bits. -/
def Obligations.EnergySplitBySign : Prop :=
  ∀ s t : State, exec .accElec s = .next t →
    let i : Int := if s.currInv then -s.eCurr.toInt else s.eCurr.toInt
    let dt : Int := ((s.eTs.toNat : Int) - s.eTsRef.toNat) % 8192
    (i > 0 → t.eaccR = s.eaccR) ∧ (i < 0 → t.eaccC = s.eaccC) ∧
    (i = 0 → t.eaccC = s.eaccC ∧ t.eaccR = s.eaccR) ∧
    (s.status.eref = true → 0 < s.eVolt.toNat → 0 < dt →
      s.eVolt.toNat * i.natAbs * dt.toNat < 2 ^ 64 →
      (i > 0 → t.eaccC ≠ s.eaccC) ∧ (i < 0 → t.eaccR ≠ s.eaccR))

/-- E_FOLD (41_accumulator.md R170): above the gate the sums move into the totals and NORM is the net energy over
36000 × d, truncated toward zero and clamped to 32 bits; at or below it only FOLD_SKIP is raised. -/
def Obligations.EFoldGatesFoldsAndNormalizes : Prop :=
  encode .eFold = 0x00000018 ∧
  (∀ s : State, s.argA.toNat ≤ s.minTravelM.toNat →
    exec .eFold s = .next { s with status := { quiet s.status with foldSkip := true } }) ∧
  (∀ s : State, s.minTravelM.toNat < s.argA.toNat → ∃ (t : State) (net q : Int), exec .eFold s = .next t ∧
    t.etotC.toNat = (s.etotC.toNat + s.eaccC.toNat) % 2 ^ 64 ∧
    t.etotR.toNat = (s.etotR.toNat + s.eaccR.toNat) % 2 ^ 64 ∧
    net = (t.etotC.toNat : Int) - t.etotR.toNat ∧
    q = (if 0 ≤ net then net / (36000 * s.argA.toNat) else -(-net / (36000 * s.argA.toNat))) ∧
    t.norm.toInt = max (-2 ^ 31) (min (2 ^ 31 - 1) q) ∧
    t = { s with
      etotC := t.etotC, etotR := t.etotR, eaccC := 0, eaccR := 0, norm := t.norm
      status := quiet s.status })

/-- The Motion and the Electric accumulators do not interfere: their commands commute (95_test_vectors.md L3-4,
derived there from 41_accumulator.md R150 and R160). -/
def Obligations.MotionAndElectricSamplesCommute : Prop :=
  ∀ s : State, ∃ m e r, exec .accMotion s = .next m ∧ exec .accElec s = .next e ∧
    exec .accElec m = .next r ∧ exec .accMotion e = .next r

/-- A gap shorter than the modulus is recovered exactly, and a longer one aliases without any flag
(70_reset_and_hazards.md R212). -/
def Obligations.DeltasRecoverShortGapsAndAlias : Prop :=
  (∀ (s : State) (a gap : Nat), s.argA.toNat = a % 8192 → s.argB.toNat = (a + gap) % 8192 →
    ∃ t, exec .delta13 s = .next t ∧ t.result.toNat = gap % 8192 ∧ t.status = quiet s.status) ∧
  (∀ (s : State) (a gap : Nat), s.argA.toNat = a % 2 ^ 32 → s.argB.toNat = (a + gap) % 2 ^ 32 →
    ∃ t, exec .delta32 s = .next t ∧ t.result.toNat = gap % 2 ^ 32 ∧ t.status = quiet s.status)

/-! ## Invariants -/

/-- The invariant holds at reset. -/
def Obligations.InvariantAtReset : Prop := State.reset.Inv

/-- Every step keeps the invariant, from every state that has it: PPR and MMPR nonzero, at most one transient
bit, KIND_ERR only beside an unrecognized LAST_KIND, nothing accumulated before a first sample. -/
def Obligations.StepKeepsTheInvariant : Prop :=
  ∀ s t : State, s.Inv → step s = .next t → t.Inv
end

