-- ==== Sys2Proof/Config.lean ====
section
/-! DEFINITION. What the platform fixes and no rule of the block reads (93_implementation_defined.md P3, P4).
Both are opaque constants: nothing can be proved about their values, and no meaning uses them. -/

namespace Sys2Proof

/-- The physical temperature sensors the source names (92_eei_decisions.md D31). -/
inductive SensorName where
  | battery
  | driver
  | motor
deriving DecidableEq, Repr, Inhabited

/-- FCA_BASE: where a platform places the 4 KiB register space (20_memory.md R68). -/
opaque Config.fcaBase : Nat

/-- TEMP_FIELD_MAP: which sensor travels in which of the three SensorBlock fields (00_scope.md R10). -/
opaque Config.tempFieldMap : Fin 3 → SensorName

end Sys2Proof
end

