-- ==== Sys2Proof/Laws/Encoding.lean ====
section
/-! SUPPORT. Format C taken apart and put together (30_encoding.md R80, R81), and the fields as numbers. -/

namespace Sys2Proof

@[simp] theorem opField_formatC (op : BitVec 8) (arg : Arg) : opField (formatC op arg) = op := by
  apply BitVec.eq_of_getLsbD_eq
  intro i hi
  have h8 : ¬ 8 ≤ i := by omega
  simp [opField, formatC, hi]
  omega

@[simp] theorem argField_formatC (op : BitVec 8) (arg : Arg) : argField (formatC op arg) = arg := by
  apply BitVec.eq_of_getLsbD_eq
  intro i hi
  have h : 8 + i < 32 := by omega
  simp [argField, formatC, hi, h]

@[simp] theorem zField_formatC (op : BitVec 8) (arg : Arg) : zField (formatC op arg) = 0 := by
  apply BitVec.eq_of_getLsbD_eq
  intro i hi
  simp [zField, formatC, hi]
  exact ⟨fun _ => BitVec.getLsbD_of_ge _ _ (by omega), fun _ _ _ => BitVec.getLsbD_of_ge _ _ (by omega)⟩

/-- A word whose Z field is 0 is format C of its own fields. -/
theorem formatC_fields {w : Word} (hz : zField w = 0) : formatC (opField w) (argField w) = w := by
  apply BitVec.eq_of_getLsbD_eq
  intro i hi
  have hzi : ∀ j, j < 18 → w.getLsbD (14 + j) = false := by
    intro j hj
    have := congrArg (fun x : BitVec 18 => x.getLsbD j) hz
    simpa [zField, hj] using this
  by_cases h8 : i < 8
  · simp [formatC, opField, hi, h8]
  · by_cases h14 : i - 8 < 6
    · have e : 8 + (i - 8) = i := by omega
      simp [formatC, opField, argField, hi, h8, h14, e]
    · have hj : i = 14 + (i - 14) := by omega
      have hw : w.getLsbD i = false := by rw [hj]; exact hzi (i - 14) (by omega)
      rw [hw]
      simp [formatC, opField, argField, hi, h8, h14]

theorem opField_toNat (w : Word) : (opField w).toNat = w.toNat % 256 := by
  simp [opField]

theorem argField_toNat (w : Word) : (argField w).toNat = w.toNat / 2 ^ 8 % 2 ^ 6 := by
  simp [argField, Nat.shiftRight_eq_div_pow]

theorem zField_toNat (w : Word) : (zField w).toNat = w.toNat / 2 ^ 14 := by
  simp [zField, Nat.shiftRight_eq_div_pow]
  omega

/-- The opcode map read back: the command at an opcode has that opcode. -/
theorem op_of_opcodeMap {op : BitVec 8} {arg : Arg} {i : Instr} (h : opcodeMap op arg = some i) :
    i.op = op := by
  apply BitVec.eq_of_toNat_eq
  unfold opcodeMap at h
  split at h <;> simp_all <;> subst h <;> simp [Instr.op, *]

/-- Every command stands at its opcode with its own argument. -/
@[simp] theorem opcodeMap_op_arg (i : Instr) : opcodeMap i.op i.arg = some i := by
  cases i <;> rfl

/-- What the decoder accepts: exactly the words of the well-formed commands. -/
theorem decode_eq_ok_iff (w : Word) (i : Instr) :
    decode w = .ok i ↔ zField w = 0 ∧ opcodeMap (opField w) (argField w) = some i ∧
      i.arg = argField w ∧ i.wellFormed = true := by
  unfold decode
  split
  · simp_all
  · split
    · simp_all
    · rename_i j hj
      split
      · simp_all
        rintro rfl
        assumption
      · simp_all
        rintro rfl
        assumption

end Sys2Proof
end

