-- ==== Sys2Proof/Laws/Operands.lean ====
section
/-! SUPPORT. The shared arithmetic as numbers: frame fields (30_encoding.md R87 to R94), sign-magnitude
(40_codec.md R110 to R112), deltas and distances (41_accumulator.md R140 to R144). -/

namespace Sys2Proof.Machine

/-! ### Concatenation and halves -/

theorem append_toNat {m n : Nat} (a : BitVec m) (b : BitVec n) :
    (a ++ b).toNat = a.toNat * 2 ^ n + b.toNat := by
  rw [BitVec.toNat_append, ← Nat.shiftLeft_add_eq_or_of_lt b.isLt, Nat.shiftLeft_eq]

@[simp] theorem lo32_toNat (v : DWord) : (lo32 v).toNat = v.toNat % 2 ^ 32 := by
  simp [lo32]

@[simp] theorem hi32_toNat (v : DWord) : (hi32 v).toNat = v.toNat / 2 ^ 32 := by
  have := v.isLt
  simp [hi32, Nat.shiftRight_eq_div_pow]
  omega

/-- A 64-bit pair is its two halves (00_scope.md R13). -/
@[simp] theorem hi32_append_lo32 (v : DWord) : hi32 v ++ lo32 v = v := by
  apply BitVec.eq_of_toNat_eq
  rw [append_toNat, lo32_toNat, hi32_toNat]
  omega

@[simp] theorem lo32_append (a b : Word) : lo32 (a ++ b) = b := by
  apply BitVec.eq_of_toNat_eq
  have := b.isLt
  rw [lo32_toNat, append_toNat]
  omega

@[simp] theorem hi32_append (a b : Word) : hi32 (a ++ b) = a := by
  apply BitVec.eq_of_toNat_eq
  have := b.isLt
  rw [hi32_toNat, append_toNat]
  omega

/-! ### The frame -/

theorem frame_toNat (s : State) : s.frame.toNat = s.frameLo.toNat + 2 ^ 32 * s.frameHi.toNat := by
  rw [State.frame, append_toNat]; omega

@[simp] theorem frame_setFrame (s : State) (fr : DWord) : (s.setFrame fr).frame = fr := by
  simp [State.frame, State.setFrame]

@[simp] theorem frame_setStatus (s : State) (st : Status) : (s.setStatus st).frame = s.frame := rfl

theorem frameOf_toNat (p : Payload) (k : Byte) : (frameOf p k).toNat = k.toNat + 2 ^ 8 * p.toNat := by
  unfold frameOf; erw [append_toNat]; omega

theorem frameKind_toNat (fr : DWord) : (frameKind fr).toNat = fr.toNat % 256 := by
  simp [frameKind]

theorem framePayload_toNat (fr : DWord) : (framePayload fr).toNat = fr.toNat / 2 ^ 8 := by
  have := fr.isLt
  simp [framePayload, Nat.shiftRight_eq_div_pow]
  omega

@[simp] theorem frameKind_frameOf (p : Payload) (k : Byte) : frameKind (frameOf p k) = k := by
  apply BitVec.eq_of_toNat_eq
  have := k.isLt
  rw [frameKind_toNat, frameOf_toNat]
  omega

@[simp] theorem framePayload_frameOf (p : Payload) (k : Byte) : framePayload (frameOf p k) = p := by
  apply BitVec.eq_of_toNat_eq
  have := k.isLt
  rw [framePayload_toNat, frameOf_toNat]
  omega

/-! ### Fields of the payload -/

theorem ext_toNat (p : Payload) (lo w : Nat) : (ext p lo w).toNat = p.toNat / 2 ^ lo % 2 ^ w := by
  simp [ext, Nat.shiftRight_eq_div_pow]

/-- A payload field is a field of the frame, 8 bits higher (30_encoding.md R87). -/
theorem ext_framePayload_toNat (fr : DWord) (lo w : Nat) :
    (ext (framePayload fr) lo w).toNat = fr.toNat / 2 ^ (8 + lo) % 2 ^ w := by
  rw [ext_toNat, framePayload_toNat, Nat.div_div_eq_div_mul, ← Nat.pow_add]

theorem getLsbD_ins (p : Payload) (lo : Nat) {w : Nat} (v : BitVec w) (i : Nat) :
    (ins p lo v).getLsbD i =
      if lo ≤ i ∧ i < lo + w ∧ i < 56 then v.getLsbD (i - lo) else p.getLsbD i := by
  by_cases h56 : i < 56
  · by_cases hlo : lo ≤ i
    · by_cases hw : i < lo + w
      · have : i - lo < w := by omega
        have h3 : ¬ i < lo := by omega
        simp [ins, h56, hlo, hw, this, h3]
      · have : ¬ i - lo < w := by omega
        have h3 : ¬ i < lo := by omega
        have h4 : v.getLsbD (i - lo) = false := BitVec.getLsbD_of_ge _ _ (by omega)
        simp [ins, h56, hlo, hw, this, h3, h4]
    · have : i < lo := by omega
      simp [ins, h56, hlo, this]
  · have h1 : (ins p lo v).getLsbD i = false := BitVec.getLsbD_of_ge _ _ (by omega)
    have h2 : p.getLsbD i = false := BitVec.getLsbD_of_ge _ _ (by omega)
    simp [h56, h1, h2]

/-- Extracting the field just inserted gives it back (30_encoding.md R94). -/
theorem ext_ins_same (p : Payload) {lo w : Nat} (v : BitVec w) (h : lo + w ≤ 56) : ext (ins p lo v) lo w = v := by
  apply BitVec.eq_of_getLsbD_eq
  intro i hi
  have h56 : lo + i < 56 := by omega
  have hw : lo + i < lo + w := by omega
  rw [ext, BitVec.getLsbD_extractLsb', getLsbD_ins]
  simp [hi, h56]

/-- Inserting a field leaves every disjoint field alone (30_encoding.md R94). -/
theorem ext_ins_disjoint (p : Payload) {lo w lo' w' : Nat} (v : BitVec w) (h : lo' + w' ≤ lo ∨ lo + w ≤ lo') :
    ext (ins p lo v) lo' w' = ext p lo' w' := by
  apply BitVec.eq_of_getLsbD_eq
  intro i hi
  rw [ext, ext, BitVec.getLsbD_extractLsb', BitVec.getLsbD_extractLsb', getLsbD_ins]
  have : ¬ (lo ≤ lo' + i ∧ lo' + i < lo + w ∧ lo' + i < 56) := by omega
  simp [this]

/-- Inserting above every bit so far is an addition. -/
theorem ins_toNat {p : Payload} {lo w : Nat} (v : BitVec w) (hp : p.toNat < 2 ^ lo) (h : lo + w ≤ 56) :
    (ins p lo v).toNat = p.toNat + 2 ^ lo * v.toNat := by
  have hv := v.isLt
  have hb : p.toNat + 2 ^ lo * v.toNat < 2 ^ (lo + w) := by
    rw [Nat.pow_add]
    calc p.toNat + 2 ^ lo * v.toNat < 2 ^ lo * (v.toNat + 1) := by rw [Nat.mul_add]; omega
      _ ≤ 2 ^ lo * 2 ^ w := Nat.mul_le_mul_left _ hv
  have hb56 : p.toNat + 2 ^ lo * v.toNat < 2 ^ 56 := lt_of_lt_of_le hb (Nat.pow_le_pow_right (by omega) h)
  have hor : p.toNat + 2 ^ lo * v.toNat = 2 ^ lo * v.toNat ||| p.toNat := by
    rw [← Nat.two_pow_add_eq_or_of_lt hp, Nat.add_comm]
  have key : ins p lo v = BitVec.ofNat 56 (p.toNat + 2 ^ lo * v.toNat) := by
    apply BitVec.eq_of_getLsbD_eq
    intro i hi
    rw [getLsbD_ins, BitVec.getLsbD_ofNat, hor, Nat.testBit_or, Nat.mul_comm, Nat.testBit_mul_two_pow]
    by_cases hlo : lo ≤ i
    · have hpf : p.toNat.testBit i = false :=
        Nat.testBit_lt_two_pow (lt_of_lt_of_le hp (Nat.pow_le_pow_right (by omega) hlo))
      by_cases hw : i < lo + w
      · simp [hi, hlo, hw, hpf, BitVec.getLsbD]
      · have : v.toNat.testBit (i - lo) = false :=
          Nat.testBit_lt_two_pow (lt_of_lt_of_le hv (Nat.pow_le_pow_right (by omega) (by omega)))
        simp [hi, hlo, hw, hpf, this, BitVec.getLsbD]
    · simp [hi, hlo, BitVec.getLsbD]
  rw [key, BitVec.toNat_ofNat, Nat.mod_eq_of_lt hb56]

theorem packElectric_toNat (ts : BitVec 13) (volt : BitVec 10) (cur : BitVec 14) (faults : BitVec 11)
    (seq : BitVec 8) :
    (packElectric ts volt cur faults seq).toNat =
      ts.toNat + 2 ^ 13 * volt.toNat + 2 ^ 23 * cur.toNat + 2 ^ 37 * faults.toNat + 2 ^ 48 * seq.toNat := by
  have h1 := ts.isLt; have h2 := volt.isLt; have h3 := cur.isLt; have h4 := faults.isLt
  unfold packElectric
  have e1 : (ins 0 0 ts).toNat = ts.toNat := by rw [ins_toNat _ (by decide) (by decide)]; simp
  have e2 := ins_toNat (p := ins 0 0 ts) (lo := 13) volt (by omega) (by decide)
  have e3 := ins_toNat (p := ins (ins 0 0 ts) 13 volt) (lo := 23) cur (by omega) (by decide)
  have e4 := ins_toNat (p := ins (ins (ins 0 0 ts) 13 volt) 23 cur) (lo := 37) faults (by omega) (by decide)
  rw [ins_toNat _ (by omega) (by decide), e4, e3, e2, e1]

theorem packMotion_toNat (ts : BitVec 13) (pulses : BitVec 32) (seq : BitVec 8) :
    (packMotion ts pulses seq).toNat = ts.toNat + 2 ^ 13 * pulses.toNat + 2 ^ 45 * seq.toNat := by
  have h1 := ts.isLt; have h2 := pulses.isLt
  unfold packMotion
  have e1 : (ins 0 0 ts).toNat = ts.toNat := by rw [ins_toNat _ (by decide) (by decide)]; simp
  have e2 := ins_toNat (p := ins 0 0 ts) (lo := 13) pulses (by omega) (by decide)
  rw [ins_toNat _ (by omega) (by decide), e2, e1]

theorem packSensor_toNat (t0 t1 t2 : BitVec 9) :
    (packSensor t0 t1 t2).toNat = t0.toNat + 2 ^ 9 * t1.toNat + 2 ^ 18 * t2.toNat := by
  have h1 := t0.isLt; have h2 := t1.isLt
  unfold packSensor
  have e1 : (ins 0 0 t0).toNat = t0.toNat := by rw [ins_toNat _ (by decide) (by decide)]; simp
  have e2 := ins_toNat (p := ins 0 0 t0) (lo := 9) t1 (by omega) (by decide)
  rw [ins_toNat _ (by omega) (by decide), e2, e1]

/-! ### Sign-magnitude (40_codec.md R110 to R112) -/

theorem two_pow_pred {n : Nat} (h : 1 ≤ n) : 2 ^ n = 2 * 2 ^ (n - 1) := by
  obtain ⟨k, rfl⟩ : ∃ k, n = k + 1 := ⟨n - 1, by omega⟩
  simp [Nat.pow_succ, Nat.mul_comm]

theorem maxMagnitude_add_one (n : Nat) : maxMagnitude n + 1 = 2 ^ (n - 1) := by
  have := Nat.two_pow_pos (n - 1)
  unfold maxMagnitude; omega

/-- The pattern fits N bits (40_codec.md R110). -/
theorem smencPattern_lt (v : Int) {n : Nat} (h : 1 ≤ n) : smencPattern v n < 2 ^ n := by
  have h1 := maxMagnitude_add_one n
  have h2 := two_pow_pred h
  simp only [smencPattern]
  split <;> omega

/-- Decoding a pattern below the sign bit gives it as it is; one at or above it is negative (40_codec.md R111). -/
theorem smdec_eq {b n : Nat} (h : 1 ≤ n) (hb : b < 2 ^ n) :
    smdec b n = if b < 2 ^ (n - 1) then (b : Int) else ((2 ^ (n - 1) : Nat) : Int) - b := by
  have h2 := two_pow_pred h
  have hpos := Nat.two_pow_pos (n - 1)
  have htb : b.testBit (n - 1) = decide (2 ^ (n - 1) ≤ b) := by
    rw [Nat.testBit_eq_decide_div_mod_eq]
    by_cases hlt : 2 ^ (n - 1) ≤ b
    · have : b / 2 ^ (n - 1) = 1 := Nat.div_eq_of_lt_le (by omega) (by omega)
      simp [this, hlt]
    · have : b / 2 ^ (n - 1) = 0 := Nat.div_eq_of_lt (by omega)
      simp [this, hlt]
  simp only [smdec, htb, decide_eq_true_eq]
  by_cases hlt : 2 ^ (n - 1) ≤ b
  · have hm : b % 2 ^ (n - 1) = b - 2 ^ (n - 1) := by
      rw [Nat.mod_eq_sub_mod hlt, Nat.mod_eq_of_lt (by omega)]
    have : ¬ b < 2 ^ (n - 1) := by omega
    simp only [hlt, this, if_true, if_false, hm]
    omega
  · have hm : b % 2 ^ (n - 1) = b := Nat.mod_eq_of_lt (by omega)
    have : b < 2 ^ (n - 1) := by omega
    simp [hlt, this, hm]

/-- The decoded integer is in range (40_codec.md R111). -/
theorem smdec_natAbs_le (b : Nat) {n : Nat} : (smdec b n).natAbs ≤ maxMagnitude n := by
  have h1 := maxMagnitude_add_one n
  have := Nat.mod_lt b (Nat.two_pow_pos (n - 1))
  simp only [smdec]
  split <;> omega

/-- Decoding what was encoded gives the value, saturated with its sign kept (40_codec.md R112). -/
theorem smdec_smencPattern (v : Int) {n : Nat} (h : 1 ≤ n) :
    smdec (smencPattern v n) n = max (-(maxMagnitude n : Int)) (min (maxMagnitude n) v) := by
  have h1 := maxMagnitude_add_one n
  rw [smdec_eq h (smencPattern_lt v h)]
  simp only [smencPattern]
  split <;> split <;> omega

theorem smField_toNat {n : Nat} (h : 1 ≤ n) (v : Word) : (smField n v).toNat = smencPattern (s32 v) n := by
  simp [smField, Nat.mod_eq_of_lt (smencPattern_lt (s32 v) h)]

/-- A decoded field read back as an integer (40_codec.md R121, R123, R126). -/
theorem u32_smdec_toInt (b : Nat) {n : Nat} (h : n ≤ 32) : (u32 (smdec b n)).toInt = smdec b n := by
  have h1 := maxMagnitude_add_one n
  have h2 := @smdec_natAbs_le b n
  have h3 : 2 ^ (n - 1) ≤ 2 ^ 31 := Nat.pow_le_pow_right (by omega) (by omega)
  rw [u32, BitVec.toInt_ofInt, Int.bmod_eq_of_le (by omega) (by omega)]

theorem smValue_smField_toInt {n : Nat} (h : 1 ≤ n) (h' : n ≤ 32) (v : Word) :
    (smValue (smField n v)).toInt = max (-(maxMagnitude n : Int)) (min (maxMagnitude n) v.toInt) := by
  rw [smValue, u32_smdec_toInt _ h', smField_toNat h, smdec_smencPattern _ h]; rfl

/-! ### Deltas and distances (41_accumulator.md R140 to R144) -/

theorem delta13_toNat (a b : BitVec 13) : ((delta13 a b).toNat : Int) = ((b.toNat : Int) - a.toNat) % 8192 := by
  have := a.isLt; have := b.isLt
  simp only [delta13, BitVec.toNat_sub]
  omega

theorem delta32_toNat (a b : Word) : ((delta32 a b).toNat : Int) = ((b.toNat : Int) - a.toNat) % 2 ^ 32 := by
  have := a.isLt; have := b.isLt
  simp only [delta32, BitVec.toNat_sub]
  omega

/-- p is at most T exactly when its product with MMPR fits 32 bits (41_accumulator.md R143). -/
theorem le_safeMulThreshold {mmpr : BitVec 16} (h : 1 ≤ mmpr.toNat) (p : Nat) :
    p ≤ safeMulThreshold mmpr ↔ p * mmpr.toNat < 2 ^ 32 := by
  rw [safeMulThreshold, Nat.le_div_iff_mul_le (by omega)]
  omega

theorem mm_eq {mmpr : BitVec 16} (ppr : BitVec 16) (h : 1 ≤ mmpr.toNat) (p : Word) :
    mm ppr mmpr p = if p.toNat * mmpr.toNat < 2 ^ 32 then p.toNat * mmpr.toNat / ppr.toNat
      else p.toNat / ppr.toNat * mmpr.toNat := by
  simp only [mm, le_safeMulThreshold h]

/-- mm(p) never exceeds p × MMPR, so it is below 2^48 (41_accumulator.md R142). -/
theorem mm_le (ppr mmpr : BitVec 16) (p : Word) : mm ppr mmpr p ≤ p.toNat * mmpr.toNat := by
  unfold mm
  split
  · exact Nat.div_le_self _ _
  · exact Nat.mul_le_mul_right _ (Nat.div_le_self _ _)

theorem mm_lt (ppr mmpr : BitVec 16) (p : Word) : mm ppr mmpr p < 2 ^ 48 := by
  have h1 := mm_le ppr mmpr p
  have h2 : p.toNat * mmpr.toNat ≤ (2 ^ 32 - 1) * (2 ^ 16 - 1) :=
    Nat.mul_le_mul (by have := p.isLt; omega) (by have := mmpr.isLt; omega)
  omega

@[simp] theorem meters_zero (ppr mmpr : BitVec 16) : meters ppr mmpr 0#32 = 0#32 := by
  simp [meters, mm]

end Sys2Proof.Machine
end

