-- ==== Sys2Proof/Laws/State.lean ====
section
/-! SUPPORT. One lemma per field per update, true by rfl, so that no later proof unfolds a record update. -/

namespace Sys2Proof.Machine

/-! ### STATUS -/

@[simp] theorem Status.clearTransient_kindErr (st : Status) : (st.clearTransient).kindErr = false := rfl
@[simp] theorem Status.clearTransient_sat (st : Status) : (st.clearTransient).sat = false := rfl
@[simp] theorem Status.clearTransient_cmdErr (st : Status) : (st.clearTransient).cmdErr = false := rfl
@[simp] theorem Status.clearTransient_mref (st : Status) : (st.clearTransient).mref = st.mref := rfl
@[simp] theorem Status.clearTransient_eref (st : Status) : (st.clearTransient).eref = st.eref := rfl
@[simp] theorem Status.clearTransient_foldSkip (st : Status) : (st.clearTransient).foldSkip = false := rfl
@[simp] theorem Status.clearTransient_lastKind (st : Status) : (st.clearTransient).lastKind = st.lastKind := rfl

@[simp] theorem Status.flagSatIf_kindErr (st : Status) (c : Bool) : (st.flagSatIf c).kindErr = st.kindErr := rfl
@[simp] theorem Status.flagSatIf_sat (st : Status) (c : Bool) : (st.flagSatIf c).sat = (st.sat || c) := rfl
@[simp] theorem Status.flagSatIf_cmdErr (st : Status) (c : Bool) : (st.flagSatIf c).cmdErr = st.cmdErr := rfl
@[simp] theorem Status.flagSatIf_mref (st : Status) (c : Bool) : (st.flagSatIf c).mref = st.mref := rfl
@[simp] theorem Status.flagSatIf_eref (st : Status) (c : Bool) : (st.flagSatIf c).eref = st.eref := rfl
@[simp] theorem Status.flagSatIf_foldSkip (st : Status) (c : Bool) : (st.flagSatIf c).foldSkip = st.foldSkip := rfl
@[simp] theorem Status.flagSatIf_lastKind (st : Status) (c : Bool) : (st.flagSatIf c).lastKind = st.lastKind := rfl

@[simp] theorem Status.flagKindErr_kindErr (st : Status) : (st.flagKindErr).kindErr = true := rfl
@[simp] theorem Status.flagKindErr_sat (st : Status) : (st.flagKindErr).sat = st.sat := rfl
@[simp] theorem Status.flagKindErr_cmdErr (st : Status) : (st.flagKindErr).cmdErr = st.cmdErr := rfl
@[simp] theorem Status.flagKindErr_mref (st : Status) : (st.flagKindErr).mref = st.mref := rfl
@[simp] theorem Status.flagKindErr_eref (st : Status) : (st.flagKindErr).eref = st.eref := rfl
@[simp] theorem Status.flagKindErr_foldSkip (st : Status) : (st.flagKindErr).foldSkip = st.foldSkip := rfl
@[simp] theorem Status.flagKindErr_lastKind (st : Status) : (st.flagKindErr).lastKind = st.lastKind := rfl

@[simp] theorem Status.flagCmdErr_kindErr (st : Status) : (st.flagCmdErr).kindErr = st.kindErr := rfl
@[simp] theorem Status.flagCmdErr_sat (st : Status) : (st.flagCmdErr).sat = st.sat := rfl
@[simp] theorem Status.flagCmdErr_cmdErr (st : Status) : (st.flagCmdErr).cmdErr = true := rfl
@[simp] theorem Status.flagCmdErr_mref (st : Status) : (st.flagCmdErr).mref = st.mref := rfl
@[simp] theorem Status.flagCmdErr_eref (st : Status) : (st.flagCmdErr).eref = st.eref := rfl
@[simp] theorem Status.flagCmdErr_foldSkip (st : Status) : (st.flagCmdErr).foldSkip = st.foldSkip := rfl
@[simp] theorem Status.flagCmdErr_lastKind (st : Status) : (st.flagCmdErr).lastKind = st.lastKind := rfl

@[simp] theorem Status.flagFoldSkip_kindErr (st : Status) : (st.flagFoldSkip).kindErr = st.kindErr := rfl
@[simp] theorem Status.flagFoldSkip_sat (st : Status) : (st.flagFoldSkip).sat = st.sat := rfl
@[simp] theorem Status.flagFoldSkip_cmdErr (st : Status) : (st.flagFoldSkip).cmdErr = st.cmdErr := rfl
@[simp] theorem Status.flagFoldSkip_mref (st : Status) : (st.flagFoldSkip).mref = st.mref := rfl
@[simp] theorem Status.flagFoldSkip_eref (st : Status) : (st.flagFoldSkip).eref = st.eref := rfl
@[simp] theorem Status.flagFoldSkip_foldSkip (st : Status) : (st.flagFoldSkip).foldSkip = true := rfl
@[simp] theorem Status.flagFoldSkip_lastKind (st : Status) : (st.flagFoldSkip).lastKind = st.lastKind := rfl

@[simp] theorem Status.setLastKind_kindErr (st : Status) (k : Byte) : (st.setLastKind k).kindErr = st.kindErr := rfl
@[simp] theorem Status.setLastKind_sat (st : Status) (k : Byte) : (st.setLastKind k).sat = st.sat := rfl
@[simp] theorem Status.setLastKind_cmdErr (st : Status) (k : Byte) : (st.setLastKind k).cmdErr = st.cmdErr := rfl
@[simp] theorem Status.setLastKind_mref (st : Status) (k : Byte) : (st.setLastKind k).mref = st.mref := rfl
@[simp] theorem Status.setLastKind_eref (st : Status) (k : Byte) : (st.setLastKind k).eref = st.eref := rfl
@[simp] theorem Status.setLastKind_foldSkip (st : Status) (k : Byte) : (st.setLastKind k).foldSkip = st.foldSkip := rfl
@[simp] theorem Status.setLastKind_lastKind (st : Status) (k : Byte) : (st.setLastKind k).lastKind = k := rfl

@[simp] theorem Status.setMref_kindErr (st : Status) : (st.setMref).kindErr = st.kindErr := rfl
@[simp] theorem Status.setMref_sat (st : Status) : (st.setMref).sat = st.sat := rfl
@[simp] theorem Status.setMref_cmdErr (st : Status) : (st.setMref).cmdErr = st.cmdErr := rfl
@[simp] theorem Status.setMref_mref (st : Status) : (st.setMref).mref = true := rfl
@[simp] theorem Status.setMref_eref (st : Status) : (st.setMref).eref = st.eref := rfl
@[simp] theorem Status.setMref_foldSkip (st : Status) : (st.setMref).foldSkip = st.foldSkip := rfl
@[simp] theorem Status.setMref_lastKind (st : Status) : (st.setMref).lastKind = st.lastKind := rfl

@[simp] theorem Status.setEref_kindErr (st : Status) : (st.setEref).kindErr = st.kindErr := rfl
@[simp] theorem Status.setEref_sat (st : Status) : (st.setEref).sat = st.sat := rfl
@[simp] theorem Status.setEref_cmdErr (st : Status) : (st.setEref).cmdErr = st.cmdErr := rfl
@[simp] theorem Status.setEref_mref (st : Status) : (st.setEref).mref = st.mref := rfl
@[simp] theorem Status.setEref_eref (st : Status) : (st.setEref).eref = true := rfl
@[simp] theorem Status.setEref_foldSkip (st : Status) : (st.setEref).foldSkip = st.foldSkip := rfl
@[simp] theorem Status.setEref_lastKind (st : Status) : (st.setEref).lastKind = st.lastKind := rfl

/-! ### The registers -/

@[simp] theorem State.beginCommand_eq (s : State) : s.beginCommand = s.setStatus s.status.clearTransient := rfl

@[simp] theorem State.illegalCommand_eq (s : State) :
    s.illegalCommand = s.setStatus s.status.clearTransient.flagCmdErr := rfl

@[simp] theorem State.setStatus_setStatus (s : State) (st st' : Status) :
    (s.setStatus st).setStatus st' = s.setStatus st' := rfl

@[simp] theorem State.setStatus_self (s : State) : s.setStatus s.status = s := rfl

@[simp] theorem State.setStatus_status (s : State) (st : Status) : (s.setStatus st).status = st := rfl
@[simp] theorem State.setStatus_decErrCnt (s : State) (st : Status) : (s.setStatus st).decErrCnt = s.decErrCnt := rfl
@[simp] theorem State.setStatus_currInv (s : State) (st : Status) : (s.setStatus st).currInv = s.currInv := rfl
@[simp] theorem State.setStatus_frameLo (s : State) (st : Status) : (s.setStatus st).frameLo = s.frameLo := rfl
@[simp] theorem State.setStatus_frameHi (s : State) (st : Status) : (s.setStatus st).frameHi = s.frameHi := rfl
@[simp] theorem State.setStatus_argA (s : State) (st : Status) : (s.setStatus st).argA = s.argA := rfl
@[simp] theorem State.setStatus_argB (s : State) (st : Status) : (s.setStatus st).argB = s.argB := rfl
@[simp] theorem State.setStatus_result (s : State) (st : Status) : (s.setStatus st).result = s.result := rfl
@[simp] theorem State.setStatus_eTs (s : State) (st : Status) : (s.setStatus st).eTs = s.eTs := rfl
@[simp] theorem State.setStatus_eVolt (s : State) (st : Status) : (s.setStatus st).eVolt = s.eVolt := rfl
@[simp] theorem State.setStatus_eCurr (s : State) (st : Status) : (s.setStatus st).eCurr = s.eCurr := rfl
@[simp] theorem State.setStatus_eFaults (s : State) (st : Status) : (s.setStatus st).eFaults = s.eFaults := rfl
@[simp] theorem State.setStatus_eSeq (s : State) (st : Status) : (s.setStatus st).eSeq = s.eSeq := rfl
@[simp] theorem State.setStatus_mTs (s : State) (st : Status) : (s.setStatus st).mTs = s.mTs := rfl
@[simp] theorem State.setStatus_mPulses (s : State) (st : Status) : (s.setStatus st).mPulses = s.mPulses := rfl
@[simp] theorem State.setStatus_mSeq (s : State) (st : Status) : (s.setStatus st).mSeq = s.mSeq := rfl
@[simp] theorem State.setStatus_sT0 (s : State) (st : Status) : (s.setStatus st).sT0 = s.sT0 := rfl
@[simp] theorem State.setStatus_sT1 (s : State) (st : Status) : (s.setStatus st).sT1 = s.sT1 := rfl
@[simp] theorem State.setStatus_sT2 (s : State) (st : Status) : (s.setStatus st).sT2 = s.sT2 := rfl
@[simp] theorem State.setStatus_ppr (s : State) (st : Status) : (s.setStatus st).ppr = s.ppr := rfl
@[simp] theorem State.setStatus_mmpr (s : State) (st : Status) : (s.setStatus st).mmpr = s.mmpr := rfl
@[simp] theorem State.setStatus_minTravelM (s : State) (st : Status) : (s.setStatus st).minTravelM = s.minTravelM := rfl
@[simp] theorem State.setStatus_odoBase (s : State) (st : Status) : (s.setStatus st).odoBase = s.odoBase := rfl
@[simp] theorem State.setStatus_odoRun (s : State) (st : Status) : (s.setStatus st).odoRun = s.odoRun := rfl
@[simp] theorem State.setStatus_pulseRef (s : State) (st : Status) : (s.setStatus st).pulseRef = s.pulseRef := rfl
@[simp] theorem State.setStatus_mTsRef (s : State) (st : Status) : (s.setStatus st).mTsRef = s.mTsRef := rfl
@[simp] theorem State.setStatus_trip0 (s : State) (st : Status) : (s.setStatus st).trip0 = s.trip0 := rfl
@[simp] theorem State.setStatus_trip1 (s : State) (st : Status) : (s.setStatus st).trip1 = s.trip1 := rfl
@[simp] theorem State.setStatus_trip2 (s : State) (st : Status) : (s.setStatus st).trip2 = s.trip2 := rfl
@[simp] theorem State.setStatus_dist0 (s : State) (st : Status) : (s.setStatus st).dist0 = s.dist0 := rfl
@[simp] theorem State.setStatus_dist1 (s : State) (st : Status) : (s.setStatus st).dist1 = s.dist1 := rfl
@[simp] theorem State.setStatus_dist2 (s : State) (st : Status) : (s.setStatus st).dist2 = s.dist2 := rfl
@[simp] theorem State.setStatus_speed (s : State) (st : Status) : (s.setStatus st).speed = s.speed := rfl
@[simp] theorem State.setStatus_eTsRef (s : State) (st : Status) : (s.setStatus st).eTsRef = s.eTsRef := rfl
@[simp] theorem State.setStatus_eaccC (s : State) (st : Status) : (s.setStatus st).eaccC = s.eaccC := rfl
@[simp] theorem State.setStatus_eaccR (s : State) (st : Status) : (s.setStatus st).eaccR = s.eaccR := rfl
@[simp] theorem State.setStatus_etotC (s : State) (st : Status) : (s.setStatus st).etotC = s.etotC := rfl
@[simp] theorem State.setStatus_etotR (s : State) (st : Status) : (s.setStatus st).etotR = s.etotR := rfl
@[simp] theorem State.setStatus_norm (s : State) (st : Status) : (s.setStatus st).norm = s.norm := rfl
@[simp] theorem State.setStatus_pending (s : State) (st : Status) : (s.setStatus st).pending = s.pending := rfl
@[simp] theorem State.setStatus_replies (s : State) (st : Status) : (s.setStatus st).replies = s.replies := rfl

@[simp] theorem State.setFrame_status (s : State) (fr : DWord) : (s.setFrame fr).status = s.status := rfl
@[simp] theorem State.setFrame_decErrCnt (s : State) (fr : DWord) : (s.setFrame fr).decErrCnt = s.decErrCnt := rfl
@[simp] theorem State.setFrame_currInv (s : State) (fr : DWord) : (s.setFrame fr).currInv = s.currInv := rfl
@[simp] theorem State.setFrame_frameLo (s : State) (fr : DWord) : (s.setFrame fr).frameLo = lo32 fr := rfl
@[simp] theorem State.setFrame_frameHi (s : State) (fr : DWord) : (s.setFrame fr).frameHi = hi32 fr := rfl
@[simp] theorem State.setFrame_argA (s : State) (fr : DWord) : (s.setFrame fr).argA = s.argA := rfl
@[simp] theorem State.setFrame_argB (s : State) (fr : DWord) : (s.setFrame fr).argB = s.argB := rfl
@[simp] theorem State.setFrame_result (s : State) (fr : DWord) : (s.setFrame fr).result = s.result := rfl
@[simp] theorem State.setFrame_eTs (s : State) (fr : DWord) : (s.setFrame fr).eTs = s.eTs := rfl
@[simp] theorem State.setFrame_eVolt (s : State) (fr : DWord) : (s.setFrame fr).eVolt = s.eVolt := rfl
@[simp] theorem State.setFrame_eCurr (s : State) (fr : DWord) : (s.setFrame fr).eCurr = s.eCurr := rfl
@[simp] theorem State.setFrame_eFaults (s : State) (fr : DWord) : (s.setFrame fr).eFaults = s.eFaults := rfl
@[simp] theorem State.setFrame_eSeq (s : State) (fr : DWord) : (s.setFrame fr).eSeq = s.eSeq := rfl
@[simp] theorem State.setFrame_mTs (s : State) (fr : DWord) : (s.setFrame fr).mTs = s.mTs := rfl
@[simp] theorem State.setFrame_mPulses (s : State) (fr : DWord) : (s.setFrame fr).mPulses = s.mPulses := rfl
@[simp] theorem State.setFrame_mSeq (s : State) (fr : DWord) : (s.setFrame fr).mSeq = s.mSeq := rfl
@[simp] theorem State.setFrame_sT0 (s : State) (fr : DWord) : (s.setFrame fr).sT0 = s.sT0 := rfl
@[simp] theorem State.setFrame_sT1 (s : State) (fr : DWord) : (s.setFrame fr).sT1 = s.sT1 := rfl
@[simp] theorem State.setFrame_sT2 (s : State) (fr : DWord) : (s.setFrame fr).sT2 = s.sT2 := rfl
@[simp] theorem State.setFrame_ppr (s : State) (fr : DWord) : (s.setFrame fr).ppr = s.ppr := rfl
@[simp] theorem State.setFrame_mmpr (s : State) (fr : DWord) : (s.setFrame fr).mmpr = s.mmpr := rfl
@[simp] theorem State.setFrame_minTravelM (s : State) (fr : DWord) : (s.setFrame fr).minTravelM = s.minTravelM := rfl
@[simp] theorem State.setFrame_odoBase (s : State) (fr : DWord) : (s.setFrame fr).odoBase = s.odoBase := rfl
@[simp] theorem State.setFrame_odoRun (s : State) (fr : DWord) : (s.setFrame fr).odoRun = s.odoRun := rfl
@[simp] theorem State.setFrame_pulseRef (s : State) (fr : DWord) : (s.setFrame fr).pulseRef = s.pulseRef := rfl
@[simp] theorem State.setFrame_mTsRef (s : State) (fr : DWord) : (s.setFrame fr).mTsRef = s.mTsRef := rfl
@[simp] theorem State.setFrame_trip0 (s : State) (fr : DWord) : (s.setFrame fr).trip0 = s.trip0 := rfl
@[simp] theorem State.setFrame_trip1 (s : State) (fr : DWord) : (s.setFrame fr).trip1 = s.trip1 := rfl
@[simp] theorem State.setFrame_trip2 (s : State) (fr : DWord) : (s.setFrame fr).trip2 = s.trip2 := rfl
@[simp] theorem State.setFrame_dist0 (s : State) (fr : DWord) : (s.setFrame fr).dist0 = s.dist0 := rfl
@[simp] theorem State.setFrame_dist1 (s : State) (fr : DWord) : (s.setFrame fr).dist1 = s.dist1 := rfl
@[simp] theorem State.setFrame_dist2 (s : State) (fr : DWord) : (s.setFrame fr).dist2 = s.dist2 := rfl
@[simp] theorem State.setFrame_speed (s : State) (fr : DWord) : (s.setFrame fr).speed = s.speed := rfl
@[simp] theorem State.setFrame_eTsRef (s : State) (fr : DWord) : (s.setFrame fr).eTsRef = s.eTsRef := rfl
@[simp] theorem State.setFrame_eaccC (s : State) (fr : DWord) : (s.setFrame fr).eaccC = s.eaccC := rfl
@[simp] theorem State.setFrame_eaccR (s : State) (fr : DWord) : (s.setFrame fr).eaccR = s.eaccR := rfl
@[simp] theorem State.setFrame_etotC (s : State) (fr : DWord) : (s.setFrame fr).etotC = s.etotC := rfl
@[simp] theorem State.setFrame_etotR (s : State) (fr : DWord) : (s.setFrame fr).etotR = s.etotR := rfl
@[simp] theorem State.setFrame_norm (s : State) (fr : DWord) : (s.setFrame fr).norm = s.norm := rfl
@[simp] theorem State.setFrame_pending (s : State) (fr : DWord) : (s.setFrame fr).pending = s.pending := rfl
@[simp] theorem State.setFrame_replies (s : State) (fr : DWord) : (s.setFrame fr).replies = s.replies := rfl

@[simp] theorem State.setResult_status (s : State) (v : Word) : (s.setResult v).status = s.status := rfl
@[simp] theorem State.setResult_decErrCnt (s : State) (v : Word) : (s.setResult v).decErrCnt = s.decErrCnt := rfl
@[simp] theorem State.setResult_currInv (s : State) (v : Word) : (s.setResult v).currInv = s.currInv := rfl
@[simp] theorem State.setResult_frameLo (s : State) (v : Word) : (s.setResult v).frameLo = s.frameLo := rfl
@[simp] theorem State.setResult_frameHi (s : State) (v : Word) : (s.setResult v).frameHi = s.frameHi := rfl
@[simp] theorem State.setResult_argA (s : State) (v : Word) : (s.setResult v).argA = s.argA := rfl
@[simp] theorem State.setResult_argB (s : State) (v : Word) : (s.setResult v).argB = s.argB := rfl
@[simp] theorem State.setResult_result (s : State) (v : Word) : (s.setResult v).result = v := rfl
@[simp] theorem State.setResult_eTs (s : State) (v : Word) : (s.setResult v).eTs = s.eTs := rfl
@[simp] theorem State.setResult_eVolt (s : State) (v : Word) : (s.setResult v).eVolt = s.eVolt := rfl
@[simp] theorem State.setResult_eCurr (s : State) (v : Word) : (s.setResult v).eCurr = s.eCurr := rfl
@[simp] theorem State.setResult_eFaults (s : State) (v : Word) : (s.setResult v).eFaults = s.eFaults := rfl
@[simp] theorem State.setResult_eSeq (s : State) (v : Word) : (s.setResult v).eSeq = s.eSeq := rfl
@[simp] theorem State.setResult_mTs (s : State) (v : Word) : (s.setResult v).mTs = s.mTs := rfl
@[simp] theorem State.setResult_mPulses (s : State) (v : Word) : (s.setResult v).mPulses = s.mPulses := rfl
@[simp] theorem State.setResult_mSeq (s : State) (v : Word) : (s.setResult v).mSeq = s.mSeq := rfl
@[simp] theorem State.setResult_sT0 (s : State) (v : Word) : (s.setResult v).sT0 = s.sT0 := rfl
@[simp] theorem State.setResult_sT1 (s : State) (v : Word) : (s.setResult v).sT1 = s.sT1 := rfl
@[simp] theorem State.setResult_sT2 (s : State) (v : Word) : (s.setResult v).sT2 = s.sT2 := rfl
@[simp] theorem State.setResult_ppr (s : State) (v : Word) : (s.setResult v).ppr = s.ppr := rfl
@[simp] theorem State.setResult_mmpr (s : State) (v : Word) : (s.setResult v).mmpr = s.mmpr := rfl
@[simp] theorem State.setResult_minTravelM (s : State) (v : Word) : (s.setResult v).minTravelM = s.minTravelM := rfl
@[simp] theorem State.setResult_odoBase (s : State) (v : Word) : (s.setResult v).odoBase = s.odoBase := rfl
@[simp] theorem State.setResult_odoRun (s : State) (v : Word) : (s.setResult v).odoRun = s.odoRun := rfl
@[simp] theorem State.setResult_pulseRef (s : State) (v : Word) : (s.setResult v).pulseRef = s.pulseRef := rfl
@[simp] theorem State.setResult_mTsRef (s : State) (v : Word) : (s.setResult v).mTsRef = s.mTsRef := rfl
@[simp] theorem State.setResult_trip0 (s : State) (v : Word) : (s.setResult v).trip0 = s.trip0 := rfl
@[simp] theorem State.setResult_trip1 (s : State) (v : Word) : (s.setResult v).trip1 = s.trip1 := rfl
@[simp] theorem State.setResult_trip2 (s : State) (v : Word) : (s.setResult v).trip2 = s.trip2 := rfl
@[simp] theorem State.setResult_dist0 (s : State) (v : Word) : (s.setResult v).dist0 = s.dist0 := rfl
@[simp] theorem State.setResult_dist1 (s : State) (v : Word) : (s.setResult v).dist1 = s.dist1 := rfl
@[simp] theorem State.setResult_dist2 (s : State) (v : Word) : (s.setResult v).dist2 = s.dist2 := rfl
@[simp] theorem State.setResult_speed (s : State) (v : Word) : (s.setResult v).speed = s.speed := rfl
@[simp] theorem State.setResult_eTsRef (s : State) (v : Word) : (s.setResult v).eTsRef = s.eTsRef := rfl
@[simp] theorem State.setResult_eaccC (s : State) (v : Word) : (s.setResult v).eaccC = s.eaccC := rfl
@[simp] theorem State.setResult_eaccR (s : State) (v : Word) : (s.setResult v).eaccR = s.eaccR := rfl
@[simp] theorem State.setResult_etotC (s : State) (v : Word) : (s.setResult v).etotC = s.etotC := rfl
@[simp] theorem State.setResult_etotR (s : State) (v : Word) : (s.setResult v).etotR = s.etotR := rfl
@[simp] theorem State.setResult_norm (s : State) (v : Word) : (s.setResult v).norm = s.norm := rfl
@[simp] theorem State.setResult_pending (s : State) (v : Word) : (s.setResult v).pending = s.pending := rfl
@[simp] theorem State.setResult_replies (s : State) (v : Word) : (s.setResult v).replies = s.replies := rfl

@[simp] theorem State.recomputeDist_status (s : State) : (s.recomputeDist).status = s.status := rfl
@[simp] theorem State.recomputeDist_decErrCnt (s : State) : (s.recomputeDist).decErrCnt = s.decErrCnt := rfl
@[simp] theorem State.recomputeDist_currInv (s : State) : (s.recomputeDist).currInv = s.currInv := rfl
@[simp] theorem State.recomputeDist_frameLo (s : State) : (s.recomputeDist).frameLo = s.frameLo := rfl
@[simp] theorem State.recomputeDist_frameHi (s : State) : (s.recomputeDist).frameHi = s.frameHi := rfl
@[simp] theorem State.recomputeDist_argA (s : State) : (s.recomputeDist).argA = s.argA := rfl
@[simp] theorem State.recomputeDist_argB (s : State) : (s.recomputeDist).argB = s.argB := rfl
@[simp] theorem State.recomputeDist_result (s : State) : (s.recomputeDist).result = s.result := rfl
@[simp] theorem State.recomputeDist_eTs (s : State) : (s.recomputeDist).eTs = s.eTs := rfl
@[simp] theorem State.recomputeDist_eVolt (s : State) : (s.recomputeDist).eVolt = s.eVolt := rfl
@[simp] theorem State.recomputeDist_eCurr (s : State) : (s.recomputeDist).eCurr = s.eCurr := rfl
@[simp] theorem State.recomputeDist_eFaults (s : State) : (s.recomputeDist).eFaults = s.eFaults := rfl
@[simp] theorem State.recomputeDist_eSeq (s : State) : (s.recomputeDist).eSeq = s.eSeq := rfl
@[simp] theorem State.recomputeDist_mTs (s : State) : (s.recomputeDist).mTs = s.mTs := rfl
@[simp] theorem State.recomputeDist_mPulses (s : State) : (s.recomputeDist).mPulses = s.mPulses := rfl
@[simp] theorem State.recomputeDist_mSeq (s : State) : (s.recomputeDist).mSeq = s.mSeq := rfl
@[simp] theorem State.recomputeDist_sT0 (s : State) : (s.recomputeDist).sT0 = s.sT0 := rfl
@[simp] theorem State.recomputeDist_sT1 (s : State) : (s.recomputeDist).sT1 = s.sT1 := rfl
@[simp] theorem State.recomputeDist_sT2 (s : State) : (s.recomputeDist).sT2 = s.sT2 := rfl
@[simp] theorem State.recomputeDist_ppr (s : State) : (s.recomputeDist).ppr = s.ppr := rfl
@[simp] theorem State.recomputeDist_mmpr (s : State) : (s.recomputeDist).mmpr = s.mmpr := rfl
@[simp] theorem State.recomputeDist_minTravelM (s : State) : (s.recomputeDist).minTravelM = s.minTravelM := rfl
@[simp] theorem State.recomputeDist_odoBase (s : State) : (s.recomputeDist).odoBase = s.odoBase := rfl
@[simp] theorem State.recomputeDist_odoRun (s : State) : (s.recomputeDist).odoRun = s.odoRun := rfl
@[simp] theorem State.recomputeDist_pulseRef (s : State) : (s.recomputeDist).pulseRef = s.pulseRef := rfl
@[simp] theorem State.recomputeDist_mTsRef (s : State) : (s.recomputeDist).mTsRef = s.mTsRef := rfl
@[simp] theorem State.recomputeDist_trip0 (s : State) : (s.recomputeDist).trip0 = s.trip0 := rfl
@[simp] theorem State.recomputeDist_trip1 (s : State) : (s.recomputeDist).trip1 = s.trip1 := rfl
@[simp] theorem State.recomputeDist_trip2 (s : State) : (s.recomputeDist).trip2 = s.trip2 := rfl
@[simp] theorem State.recomputeDist_dist0 (s : State) : (s.recomputeDist).dist0 = s.metersOf (s.total - s.trip0) := rfl
@[simp] theorem State.recomputeDist_dist1 (s : State) : (s.recomputeDist).dist1 = s.metersOf (s.total - s.trip1) := rfl
@[simp] theorem State.recomputeDist_dist2 (s : State) : (s.recomputeDist).dist2 = s.metersOf (s.total - s.trip2) := rfl
@[simp] theorem State.recomputeDist_speed (s : State) : (s.recomputeDist).speed = s.speed := rfl
@[simp] theorem State.recomputeDist_eTsRef (s : State) : (s.recomputeDist).eTsRef = s.eTsRef := rfl
@[simp] theorem State.recomputeDist_eaccC (s : State) : (s.recomputeDist).eaccC = s.eaccC := rfl
@[simp] theorem State.recomputeDist_eaccR (s : State) : (s.recomputeDist).eaccR = s.eaccR := rfl
@[simp] theorem State.recomputeDist_etotC (s : State) : (s.recomputeDist).etotC = s.etotC := rfl
@[simp] theorem State.recomputeDist_etotR (s : State) : (s.recomputeDist).etotR = s.etotR := rfl
@[simp] theorem State.recomputeDist_norm (s : State) : (s.recomputeDist).norm = s.norm := rfl
@[simp] theorem State.recomputeDist_pending (s : State) : (s.recomputeDist).pending = s.pending := rfl
@[simp] theorem State.recomputeDist_replies (s : State) : (s.recomputeDist).replies = s.replies := rfl

@[simp] theorem State.unpackElectric_status (s : State) (p : Payload) : (s.unpackElectric p).status = s.status := rfl
@[simp] theorem State.unpackElectric_decErrCnt (s : State) (p : Payload) : (s.unpackElectric p).decErrCnt = s.decErrCnt := rfl
@[simp] theorem State.unpackElectric_currInv (s : State) (p : Payload) : (s.unpackElectric p).currInv = s.currInv := rfl
@[simp] theorem State.unpackElectric_frameLo (s : State) (p : Payload) : (s.unpackElectric p).frameLo = s.frameLo := rfl
@[simp] theorem State.unpackElectric_frameHi (s : State) (p : Payload) : (s.unpackElectric p).frameHi = s.frameHi := rfl
@[simp] theorem State.unpackElectric_argA (s : State) (p : Payload) : (s.unpackElectric p).argA = s.argA := rfl
@[simp] theorem State.unpackElectric_argB (s : State) (p : Payload) : (s.unpackElectric p).argB = s.argB := rfl
@[simp] theorem State.unpackElectric_result (s : State) (p : Payload) : (s.unpackElectric p).result = s.result := rfl
@[simp] theorem State.unpackElectric_eTs (s : State) (p : Payload) : (s.unpackElectric p).eTs = (ext p 0 13).setWidth 32 := rfl
@[simp] theorem State.unpackElectric_eVolt (s : State) (p : Payload) : (s.unpackElectric p).eVolt = (ext p 13 10).setWidth 32 := rfl
@[simp] theorem State.unpackElectric_eCurr (s : State) (p : Payload) : (s.unpackElectric p).eCurr = smValue (ext p 23 14) := rfl
@[simp] theorem State.unpackElectric_eFaults (s : State) (p : Payload) : (s.unpackElectric p).eFaults = (ext p 37 11).setWidth 32 := rfl
@[simp] theorem State.unpackElectric_eSeq (s : State) (p : Payload) : (s.unpackElectric p).eSeq = (ext p 48 8).setWidth 32 := rfl
@[simp] theorem State.unpackElectric_mTs (s : State) (p : Payload) : (s.unpackElectric p).mTs = s.mTs := rfl
@[simp] theorem State.unpackElectric_mPulses (s : State) (p : Payload) : (s.unpackElectric p).mPulses = s.mPulses := rfl
@[simp] theorem State.unpackElectric_mSeq (s : State) (p : Payload) : (s.unpackElectric p).mSeq = s.mSeq := rfl
@[simp] theorem State.unpackElectric_sT0 (s : State) (p : Payload) : (s.unpackElectric p).sT0 = s.sT0 := rfl
@[simp] theorem State.unpackElectric_sT1 (s : State) (p : Payload) : (s.unpackElectric p).sT1 = s.sT1 := rfl
@[simp] theorem State.unpackElectric_sT2 (s : State) (p : Payload) : (s.unpackElectric p).sT2 = s.sT2 := rfl
@[simp] theorem State.unpackElectric_ppr (s : State) (p : Payload) : (s.unpackElectric p).ppr = s.ppr := rfl
@[simp] theorem State.unpackElectric_mmpr (s : State) (p : Payload) : (s.unpackElectric p).mmpr = s.mmpr := rfl
@[simp] theorem State.unpackElectric_minTravelM (s : State) (p : Payload) : (s.unpackElectric p).minTravelM = s.minTravelM := rfl
@[simp] theorem State.unpackElectric_odoBase (s : State) (p : Payload) : (s.unpackElectric p).odoBase = s.odoBase := rfl
@[simp] theorem State.unpackElectric_odoRun (s : State) (p : Payload) : (s.unpackElectric p).odoRun = s.odoRun := rfl
@[simp] theorem State.unpackElectric_pulseRef (s : State) (p : Payload) : (s.unpackElectric p).pulseRef = s.pulseRef := rfl
@[simp] theorem State.unpackElectric_mTsRef (s : State) (p : Payload) : (s.unpackElectric p).mTsRef = s.mTsRef := rfl
@[simp] theorem State.unpackElectric_trip0 (s : State) (p : Payload) : (s.unpackElectric p).trip0 = s.trip0 := rfl
@[simp] theorem State.unpackElectric_trip1 (s : State) (p : Payload) : (s.unpackElectric p).trip1 = s.trip1 := rfl
@[simp] theorem State.unpackElectric_trip2 (s : State) (p : Payload) : (s.unpackElectric p).trip2 = s.trip2 := rfl
@[simp] theorem State.unpackElectric_dist0 (s : State) (p : Payload) : (s.unpackElectric p).dist0 = s.dist0 := rfl
@[simp] theorem State.unpackElectric_dist1 (s : State) (p : Payload) : (s.unpackElectric p).dist1 = s.dist1 := rfl
@[simp] theorem State.unpackElectric_dist2 (s : State) (p : Payload) : (s.unpackElectric p).dist2 = s.dist2 := rfl
@[simp] theorem State.unpackElectric_speed (s : State) (p : Payload) : (s.unpackElectric p).speed = s.speed := rfl
@[simp] theorem State.unpackElectric_eTsRef (s : State) (p : Payload) : (s.unpackElectric p).eTsRef = s.eTsRef := rfl
@[simp] theorem State.unpackElectric_eaccC (s : State) (p : Payload) : (s.unpackElectric p).eaccC = s.eaccC := rfl
@[simp] theorem State.unpackElectric_eaccR (s : State) (p : Payload) : (s.unpackElectric p).eaccR = s.eaccR := rfl
@[simp] theorem State.unpackElectric_etotC (s : State) (p : Payload) : (s.unpackElectric p).etotC = s.etotC := rfl
@[simp] theorem State.unpackElectric_etotR (s : State) (p : Payload) : (s.unpackElectric p).etotR = s.etotR := rfl
@[simp] theorem State.unpackElectric_norm (s : State) (p : Payload) : (s.unpackElectric p).norm = s.norm := rfl
@[simp] theorem State.unpackElectric_pending (s : State) (p : Payload) : (s.unpackElectric p).pending = s.pending := rfl
@[simp] theorem State.unpackElectric_replies (s : State) (p : Payload) : (s.unpackElectric p).replies = s.replies := rfl

@[simp] theorem State.unpackMotion_status (s : State) (p : Payload) : (s.unpackMotion p).status = s.status := rfl
@[simp] theorem State.unpackMotion_decErrCnt (s : State) (p : Payload) : (s.unpackMotion p).decErrCnt = s.decErrCnt := rfl
@[simp] theorem State.unpackMotion_currInv (s : State) (p : Payload) : (s.unpackMotion p).currInv = s.currInv := rfl
@[simp] theorem State.unpackMotion_frameLo (s : State) (p : Payload) : (s.unpackMotion p).frameLo = s.frameLo := rfl
@[simp] theorem State.unpackMotion_frameHi (s : State) (p : Payload) : (s.unpackMotion p).frameHi = s.frameHi := rfl
@[simp] theorem State.unpackMotion_argA (s : State) (p : Payload) : (s.unpackMotion p).argA = s.argA := rfl
@[simp] theorem State.unpackMotion_argB (s : State) (p : Payload) : (s.unpackMotion p).argB = s.argB := rfl
@[simp] theorem State.unpackMotion_result (s : State) (p : Payload) : (s.unpackMotion p).result = s.result := rfl
@[simp] theorem State.unpackMotion_eTs (s : State) (p : Payload) : (s.unpackMotion p).eTs = s.eTs := rfl
@[simp] theorem State.unpackMotion_eVolt (s : State) (p : Payload) : (s.unpackMotion p).eVolt = s.eVolt := rfl
@[simp] theorem State.unpackMotion_eCurr (s : State) (p : Payload) : (s.unpackMotion p).eCurr = s.eCurr := rfl
@[simp] theorem State.unpackMotion_eFaults (s : State) (p : Payload) : (s.unpackMotion p).eFaults = s.eFaults := rfl
@[simp] theorem State.unpackMotion_eSeq (s : State) (p : Payload) : (s.unpackMotion p).eSeq = s.eSeq := rfl
@[simp] theorem State.unpackMotion_mTs (s : State) (p : Payload) : (s.unpackMotion p).mTs = (ext p 0 13).setWidth 32 := rfl
@[simp] theorem State.unpackMotion_mPulses (s : State) (p : Payload) : (s.unpackMotion p).mPulses = ext p 13 32 := rfl
@[simp] theorem State.unpackMotion_mSeq (s : State) (p : Payload) : (s.unpackMotion p).mSeq = (ext p 45 8).setWidth 32 := rfl
@[simp] theorem State.unpackMotion_sT0 (s : State) (p : Payload) : (s.unpackMotion p).sT0 = s.sT0 := rfl
@[simp] theorem State.unpackMotion_sT1 (s : State) (p : Payload) : (s.unpackMotion p).sT1 = s.sT1 := rfl
@[simp] theorem State.unpackMotion_sT2 (s : State) (p : Payload) : (s.unpackMotion p).sT2 = s.sT2 := rfl
@[simp] theorem State.unpackMotion_ppr (s : State) (p : Payload) : (s.unpackMotion p).ppr = s.ppr := rfl
@[simp] theorem State.unpackMotion_mmpr (s : State) (p : Payload) : (s.unpackMotion p).mmpr = s.mmpr := rfl
@[simp] theorem State.unpackMotion_minTravelM (s : State) (p : Payload) : (s.unpackMotion p).minTravelM = s.minTravelM := rfl
@[simp] theorem State.unpackMotion_odoBase (s : State) (p : Payload) : (s.unpackMotion p).odoBase = s.odoBase := rfl
@[simp] theorem State.unpackMotion_odoRun (s : State) (p : Payload) : (s.unpackMotion p).odoRun = s.odoRun := rfl
@[simp] theorem State.unpackMotion_pulseRef (s : State) (p : Payload) : (s.unpackMotion p).pulseRef = s.pulseRef := rfl
@[simp] theorem State.unpackMotion_mTsRef (s : State) (p : Payload) : (s.unpackMotion p).mTsRef = s.mTsRef := rfl
@[simp] theorem State.unpackMotion_trip0 (s : State) (p : Payload) : (s.unpackMotion p).trip0 = s.trip0 := rfl
@[simp] theorem State.unpackMotion_trip1 (s : State) (p : Payload) : (s.unpackMotion p).trip1 = s.trip1 := rfl
@[simp] theorem State.unpackMotion_trip2 (s : State) (p : Payload) : (s.unpackMotion p).trip2 = s.trip2 := rfl
@[simp] theorem State.unpackMotion_dist0 (s : State) (p : Payload) : (s.unpackMotion p).dist0 = s.dist0 := rfl
@[simp] theorem State.unpackMotion_dist1 (s : State) (p : Payload) : (s.unpackMotion p).dist1 = s.dist1 := rfl
@[simp] theorem State.unpackMotion_dist2 (s : State) (p : Payload) : (s.unpackMotion p).dist2 = s.dist2 := rfl
@[simp] theorem State.unpackMotion_speed (s : State) (p : Payload) : (s.unpackMotion p).speed = s.speed := rfl
@[simp] theorem State.unpackMotion_eTsRef (s : State) (p : Payload) : (s.unpackMotion p).eTsRef = s.eTsRef := rfl
@[simp] theorem State.unpackMotion_eaccC (s : State) (p : Payload) : (s.unpackMotion p).eaccC = s.eaccC := rfl
@[simp] theorem State.unpackMotion_eaccR (s : State) (p : Payload) : (s.unpackMotion p).eaccR = s.eaccR := rfl
@[simp] theorem State.unpackMotion_etotC (s : State) (p : Payload) : (s.unpackMotion p).etotC = s.etotC := rfl
@[simp] theorem State.unpackMotion_etotR (s : State) (p : Payload) : (s.unpackMotion p).etotR = s.etotR := rfl
@[simp] theorem State.unpackMotion_norm (s : State) (p : Payload) : (s.unpackMotion p).norm = s.norm := rfl
@[simp] theorem State.unpackMotion_pending (s : State) (p : Payload) : (s.unpackMotion p).pending = s.pending := rfl
@[simp] theorem State.unpackMotion_replies (s : State) (p : Payload) : (s.unpackMotion p).replies = s.replies := rfl

@[simp] theorem State.unpackSensor_status (s : State) (p : Payload) : (s.unpackSensor p).status = s.status := rfl
@[simp] theorem State.unpackSensor_decErrCnt (s : State) (p : Payload) : (s.unpackSensor p).decErrCnt = s.decErrCnt := rfl
@[simp] theorem State.unpackSensor_currInv (s : State) (p : Payload) : (s.unpackSensor p).currInv = s.currInv := rfl
@[simp] theorem State.unpackSensor_frameLo (s : State) (p : Payload) : (s.unpackSensor p).frameLo = s.frameLo := rfl
@[simp] theorem State.unpackSensor_frameHi (s : State) (p : Payload) : (s.unpackSensor p).frameHi = s.frameHi := rfl
@[simp] theorem State.unpackSensor_argA (s : State) (p : Payload) : (s.unpackSensor p).argA = s.argA := rfl
@[simp] theorem State.unpackSensor_argB (s : State) (p : Payload) : (s.unpackSensor p).argB = s.argB := rfl
@[simp] theorem State.unpackSensor_result (s : State) (p : Payload) : (s.unpackSensor p).result = s.result := rfl
@[simp] theorem State.unpackSensor_eTs (s : State) (p : Payload) : (s.unpackSensor p).eTs = s.eTs := rfl
@[simp] theorem State.unpackSensor_eVolt (s : State) (p : Payload) : (s.unpackSensor p).eVolt = s.eVolt := rfl
@[simp] theorem State.unpackSensor_eCurr (s : State) (p : Payload) : (s.unpackSensor p).eCurr = s.eCurr := rfl
@[simp] theorem State.unpackSensor_eFaults (s : State) (p : Payload) : (s.unpackSensor p).eFaults = s.eFaults := rfl
@[simp] theorem State.unpackSensor_eSeq (s : State) (p : Payload) : (s.unpackSensor p).eSeq = s.eSeq := rfl
@[simp] theorem State.unpackSensor_mTs (s : State) (p : Payload) : (s.unpackSensor p).mTs = s.mTs := rfl
@[simp] theorem State.unpackSensor_mPulses (s : State) (p : Payload) : (s.unpackSensor p).mPulses = s.mPulses := rfl
@[simp] theorem State.unpackSensor_mSeq (s : State) (p : Payload) : (s.unpackSensor p).mSeq = s.mSeq := rfl
@[simp] theorem State.unpackSensor_sT0 (s : State) (p : Payload) : (s.unpackSensor p).sT0 = smValue (ext p 0 9) := rfl
@[simp] theorem State.unpackSensor_sT1 (s : State) (p : Payload) : (s.unpackSensor p).sT1 = smValue (ext p 9 9) := rfl
@[simp] theorem State.unpackSensor_sT2 (s : State) (p : Payload) : (s.unpackSensor p).sT2 = smValue (ext p 18 9) := rfl
@[simp] theorem State.unpackSensor_ppr (s : State) (p : Payload) : (s.unpackSensor p).ppr = s.ppr := rfl
@[simp] theorem State.unpackSensor_mmpr (s : State) (p : Payload) : (s.unpackSensor p).mmpr = s.mmpr := rfl
@[simp] theorem State.unpackSensor_minTravelM (s : State) (p : Payload) : (s.unpackSensor p).minTravelM = s.minTravelM := rfl
@[simp] theorem State.unpackSensor_odoBase (s : State) (p : Payload) : (s.unpackSensor p).odoBase = s.odoBase := rfl
@[simp] theorem State.unpackSensor_odoRun (s : State) (p : Payload) : (s.unpackSensor p).odoRun = s.odoRun := rfl
@[simp] theorem State.unpackSensor_pulseRef (s : State) (p : Payload) : (s.unpackSensor p).pulseRef = s.pulseRef := rfl
@[simp] theorem State.unpackSensor_mTsRef (s : State) (p : Payload) : (s.unpackSensor p).mTsRef = s.mTsRef := rfl
@[simp] theorem State.unpackSensor_trip0 (s : State) (p : Payload) : (s.unpackSensor p).trip0 = s.trip0 := rfl
@[simp] theorem State.unpackSensor_trip1 (s : State) (p : Payload) : (s.unpackSensor p).trip1 = s.trip1 := rfl
@[simp] theorem State.unpackSensor_trip2 (s : State) (p : Payload) : (s.unpackSensor p).trip2 = s.trip2 := rfl
@[simp] theorem State.unpackSensor_dist0 (s : State) (p : Payload) : (s.unpackSensor p).dist0 = s.dist0 := rfl
@[simp] theorem State.unpackSensor_dist1 (s : State) (p : Payload) : (s.unpackSensor p).dist1 = s.dist1 := rfl
@[simp] theorem State.unpackSensor_dist2 (s : State) (p : Payload) : (s.unpackSensor p).dist2 = s.dist2 := rfl
@[simp] theorem State.unpackSensor_speed (s : State) (p : Payload) : (s.unpackSensor p).speed = s.speed := rfl
@[simp] theorem State.unpackSensor_eTsRef (s : State) (p : Payload) : (s.unpackSensor p).eTsRef = s.eTsRef := rfl
@[simp] theorem State.unpackSensor_eaccC (s : State) (p : Payload) : (s.unpackSensor p).eaccC = s.eaccC := rfl
@[simp] theorem State.unpackSensor_eaccR (s : State) (p : Payload) : (s.unpackSensor p).eaccR = s.eaccR := rfl
@[simp] theorem State.unpackSensor_etotC (s : State) (p : Payload) : (s.unpackSensor p).etotC = s.etotC := rfl
@[simp] theorem State.unpackSensor_etotR (s : State) (p : Payload) : (s.unpackSensor p).etotR = s.etotR := rfl
@[simp] theorem State.unpackSensor_norm (s : State) (p : Payload) : (s.unpackSensor p).norm = s.norm := rfl
@[simp] theorem State.unpackSensor_pending (s : State) (p : Payload) : (s.unpackSensor p).pending = s.pending := rfl
@[simp] theorem State.unpackSensor_replies (s : State) (p : Payload) : (s.unpackSensor p).replies = s.replies := rfl

@[simp] theorem State.unrecognizedKind_status (s : State) : (s.unrecognizedKind).status = s.status.flagKindErr := rfl
@[simp] theorem State.unrecognizedKind_decErrCnt (s : State) : (s.unrecognizedKind).decErrCnt = s.decErrCnt + 1 := rfl
@[simp] theorem State.unrecognizedKind_currInv (s : State) : (s.unrecognizedKind).currInv = s.currInv := rfl
@[simp] theorem State.unrecognizedKind_frameLo (s : State) : (s.unrecognizedKind).frameLo = s.frameLo := rfl
@[simp] theorem State.unrecognizedKind_frameHi (s : State) : (s.unrecognizedKind).frameHi = s.frameHi := rfl
@[simp] theorem State.unrecognizedKind_argA (s : State) : (s.unrecognizedKind).argA = s.argA := rfl
@[simp] theorem State.unrecognizedKind_argB (s : State) : (s.unrecognizedKind).argB = s.argB := rfl
@[simp] theorem State.unrecognizedKind_result (s : State) : (s.unrecognizedKind).result = s.result := rfl
@[simp] theorem State.unrecognizedKind_eTs (s : State) : (s.unrecognizedKind).eTs = s.eTs := rfl
@[simp] theorem State.unrecognizedKind_eVolt (s : State) : (s.unrecognizedKind).eVolt = s.eVolt := rfl
@[simp] theorem State.unrecognizedKind_eCurr (s : State) : (s.unrecognizedKind).eCurr = s.eCurr := rfl
@[simp] theorem State.unrecognizedKind_eFaults (s : State) : (s.unrecognizedKind).eFaults = s.eFaults := rfl
@[simp] theorem State.unrecognizedKind_eSeq (s : State) : (s.unrecognizedKind).eSeq = s.eSeq := rfl
@[simp] theorem State.unrecognizedKind_mTs (s : State) : (s.unrecognizedKind).mTs = s.mTs := rfl
@[simp] theorem State.unrecognizedKind_mPulses (s : State) : (s.unrecognizedKind).mPulses = s.mPulses := rfl
@[simp] theorem State.unrecognizedKind_mSeq (s : State) : (s.unrecognizedKind).mSeq = s.mSeq := rfl
@[simp] theorem State.unrecognizedKind_sT0 (s : State) : (s.unrecognizedKind).sT0 = s.sT0 := rfl
@[simp] theorem State.unrecognizedKind_sT1 (s : State) : (s.unrecognizedKind).sT1 = s.sT1 := rfl
@[simp] theorem State.unrecognizedKind_sT2 (s : State) : (s.unrecognizedKind).sT2 = s.sT2 := rfl
@[simp] theorem State.unrecognizedKind_ppr (s : State) : (s.unrecognizedKind).ppr = s.ppr := rfl
@[simp] theorem State.unrecognizedKind_mmpr (s : State) : (s.unrecognizedKind).mmpr = s.mmpr := rfl
@[simp] theorem State.unrecognizedKind_minTravelM (s : State) : (s.unrecognizedKind).minTravelM = s.minTravelM := rfl
@[simp] theorem State.unrecognizedKind_odoBase (s : State) : (s.unrecognizedKind).odoBase = s.odoBase := rfl
@[simp] theorem State.unrecognizedKind_odoRun (s : State) : (s.unrecognizedKind).odoRun = s.odoRun := rfl
@[simp] theorem State.unrecognizedKind_pulseRef (s : State) : (s.unrecognizedKind).pulseRef = s.pulseRef := rfl
@[simp] theorem State.unrecognizedKind_mTsRef (s : State) : (s.unrecognizedKind).mTsRef = s.mTsRef := rfl
@[simp] theorem State.unrecognizedKind_trip0 (s : State) : (s.unrecognizedKind).trip0 = s.trip0 := rfl
@[simp] theorem State.unrecognizedKind_trip1 (s : State) : (s.unrecognizedKind).trip1 = s.trip1 := rfl
@[simp] theorem State.unrecognizedKind_trip2 (s : State) : (s.unrecognizedKind).trip2 = s.trip2 := rfl
@[simp] theorem State.unrecognizedKind_dist0 (s : State) : (s.unrecognizedKind).dist0 = s.dist0 := rfl
@[simp] theorem State.unrecognizedKind_dist1 (s : State) : (s.unrecognizedKind).dist1 = s.dist1 := rfl
@[simp] theorem State.unrecognizedKind_dist2 (s : State) : (s.unrecognizedKind).dist2 = s.dist2 := rfl
@[simp] theorem State.unrecognizedKind_speed (s : State) : (s.unrecognizedKind).speed = s.speed := rfl
@[simp] theorem State.unrecognizedKind_eTsRef (s : State) : (s.unrecognizedKind).eTsRef = s.eTsRef := rfl
@[simp] theorem State.unrecognizedKind_eaccC (s : State) : (s.unrecognizedKind).eaccC = s.eaccC := rfl
@[simp] theorem State.unrecognizedKind_eaccR (s : State) : (s.unrecognizedKind).eaccR = s.eaccR := rfl
@[simp] theorem State.unrecognizedKind_etotC (s : State) : (s.unrecognizedKind).etotC = s.etotC := rfl
@[simp] theorem State.unrecognizedKind_etotR (s : State) : (s.unrecognizedKind).etotR = s.etotR := rfl
@[simp] theorem State.unrecognizedKind_norm (s : State) : (s.unrecognizedKind).norm = s.norm := rfl
@[simp] theorem State.unrecognizedKind_pending (s : State) : (s.unrecognizedKind).pending = s.pending := rfl
@[simp] theorem State.unrecognizedKind_replies (s : State) : (s.unrecognizedKind).replies = s.replies := rfl

@[simp] theorem State.applyMotion_status (s : State) : (s.applyMotion).status = s.status := rfl
@[simp] theorem State.applyMotion_decErrCnt (s : State) : (s.applyMotion).decErrCnt = s.decErrCnt := rfl
@[simp] theorem State.applyMotion_currInv (s : State) : (s.applyMotion).currInv = s.currInv := rfl
@[simp] theorem State.applyMotion_frameLo (s : State) : (s.applyMotion).frameLo = s.frameLo := rfl
@[simp] theorem State.applyMotion_frameHi (s : State) : (s.applyMotion).frameHi = s.frameHi := rfl
@[simp] theorem State.applyMotion_argA (s : State) : (s.applyMotion).argA = s.argA := rfl
@[simp] theorem State.applyMotion_argB (s : State) : (s.applyMotion).argB = s.argB := rfl
@[simp] theorem State.applyMotion_result (s : State) : (s.applyMotion).result = s.result := rfl
@[simp] theorem State.applyMotion_eTs (s : State) : (s.applyMotion).eTs = s.eTs := rfl
@[simp] theorem State.applyMotion_eVolt (s : State) : (s.applyMotion).eVolt = s.eVolt := rfl
@[simp] theorem State.applyMotion_eCurr (s : State) : (s.applyMotion).eCurr = s.eCurr := rfl
@[simp] theorem State.applyMotion_eFaults (s : State) : (s.applyMotion).eFaults = s.eFaults := rfl
@[simp] theorem State.applyMotion_eSeq (s : State) : (s.applyMotion).eSeq = s.eSeq := rfl
@[simp] theorem State.applyMotion_mTs (s : State) : (s.applyMotion).mTs = s.mTs := rfl
@[simp] theorem State.applyMotion_mPulses (s : State) : (s.applyMotion).mPulses = s.mPulses := rfl
@[simp] theorem State.applyMotion_mSeq (s : State) : (s.applyMotion).mSeq = s.mSeq := rfl
@[simp] theorem State.applyMotion_sT0 (s : State) : (s.applyMotion).sT0 = s.sT0 := rfl
@[simp] theorem State.applyMotion_sT1 (s : State) : (s.applyMotion).sT1 = s.sT1 := rfl
@[simp] theorem State.applyMotion_sT2 (s : State) : (s.applyMotion).sT2 = s.sT2 := rfl
@[simp] theorem State.applyMotion_ppr (s : State) : (s.applyMotion).ppr = s.ppr := rfl
@[simp] theorem State.applyMotion_mmpr (s : State) : (s.applyMotion).mmpr = s.mmpr := rfl
@[simp] theorem State.applyMotion_minTravelM (s : State) : (s.applyMotion).minTravelM = s.minTravelM := rfl
@[simp] theorem State.applyMotion_odoBase (s : State) : (s.applyMotion).odoBase = s.odoBase := rfl
@[simp] theorem State.applyMotion_odoRun (s : State) : (s.applyMotion).odoRun = s.odoRun + s.pulseDelta := rfl
@[simp] theorem State.applyMotion_pulseRef (s : State) : (s.applyMotion).pulseRef = s.mPulses := rfl
@[simp] theorem State.applyMotion_mTsRef (s : State) : (s.applyMotion).mTsRef = s.mTs.setWidth 13 := rfl
@[simp] theorem State.applyMotion_trip0 (s : State) : (s.applyMotion).trip0 = s.trip0 := rfl
@[simp] theorem State.applyMotion_trip1 (s : State) : (s.applyMotion).trip1 = s.trip1 := rfl
@[simp] theorem State.applyMotion_trip2 (s : State) : (s.applyMotion).trip2 = s.trip2 := rfl
@[simp] theorem State.applyMotion_dist0 (s : State) : (s.applyMotion).dist0 = s.dist0 := rfl
@[simp] theorem State.applyMotion_dist1 (s : State) : (s.applyMotion).dist1 = s.dist1 := rfl
@[simp] theorem State.applyMotion_dist2 (s : State) : (s.applyMotion).dist2 = s.dist2 := rfl
@[simp] theorem State.applyMotion_speed (s : State) : (s.applyMotion).speed = s.sampleSpeed := rfl
@[simp] theorem State.applyMotion_eTsRef (s : State) : (s.applyMotion).eTsRef = s.eTsRef := rfl
@[simp] theorem State.applyMotion_eaccC (s : State) : (s.applyMotion).eaccC = s.eaccC := rfl
@[simp] theorem State.applyMotion_eaccR (s : State) : (s.applyMotion).eaccR = s.eaccR := rfl
@[simp] theorem State.applyMotion_etotC (s : State) : (s.applyMotion).etotC = s.etotC := rfl
@[simp] theorem State.applyMotion_etotR (s : State) : (s.applyMotion).etotR = s.etotR := rfl
@[simp] theorem State.applyMotion_norm (s : State) : (s.applyMotion).norm = s.norm := rfl
@[simp] theorem State.applyMotion_pending (s : State) : (s.applyMotion).pending = s.pending := rfl
@[simp] theorem State.applyMotion_replies (s : State) : (s.applyMotion).replies = s.replies := rfl

@[simp] theorem State.foldOdometer_status (s : State) : (s.foldOdometer).status = s.status := rfl
@[simp] theorem State.foldOdometer_decErrCnt (s : State) : (s.foldOdometer).decErrCnt = s.decErrCnt := rfl
@[simp] theorem State.foldOdometer_currInv (s : State) : (s.foldOdometer).currInv = s.currInv := rfl
@[simp] theorem State.foldOdometer_frameLo (s : State) : (s.foldOdometer).frameLo = s.frameLo := rfl
@[simp] theorem State.foldOdometer_frameHi (s : State) : (s.foldOdometer).frameHi = s.frameHi := rfl
@[simp] theorem State.foldOdometer_argA (s : State) : (s.foldOdometer).argA = s.argA := rfl
@[simp] theorem State.foldOdometer_argB (s : State) : (s.foldOdometer).argB = s.argB := rfl
@[simp] theorem State.foldOdometer_result (s : State) : (s.foldOdometer).result = s.result := rfl
@[simp] theorem State.foldOdometer_eTs (s : State) : (s.foldOdometer).eTs = s.eTs := rfl
@[simp] theorem State.foldOdometer_eVolt (s : State) : (s.foldOdometer).eVolt = s.eVolt := rfl
@[simp] theorem State.foldOdometer_eCurr (s : State) : (s.foldOdometer).eCurr = s.eCurr := rfl
@[simp] theorem State.foldOdometer_eFaults (s : State) : (s.foldOdometer).eFaults = s.eFaults := rfl
@[simp] theorem State.foldOdometer_eSeq (s : State) : (s.foldOdometer).eSeq = s.eSeq := rfl
@[simp] theorem State.foldOdometer_mTs (s : State) : (s.foldOdometer).mTs = s.mTs := rfl
@[simp] theorem State.foldOdometer_mPulses (s : State) : (s.foldOdometer).mPulses = s.mPulses := rfl
@[simp] theorem State.foldOdometer_mSeq (s : State) : (s.foldOdometer).mSeq = s.mSeq := rfl
@[simp] theorem State.foldOdometer_sT0 (s : State) : (s.foldOdometer).sT0 = s.sT0 := rfl
@[simp] theorem State.foldOdometer_sT1 (s : State) : (s.foldOdometer).sT1 = s.sT1 := rfl
@[simp] theorem State.foldOdometer_sT2 (s : State) : (s.foldOdometer).sT2 = s.sT2 := rfl
@[simp] theorem State.foldOdometer_ppr (s : State) : (s.foldOdometer).ppr = s.ppr := rfl
@[simp] theorem State.foldOdometer_mmpr (s : State) : (s.foldOdometer).mmpr = s.mmpr := rfl
@[simp] theorem State.foldOdometer_minTravelM (s : State) : (s.foldOdometer).minTravelM = s.minTravelM := rfl
@[simp] theorem State.foldOdometer_odoBase (s : State) : (s.foldOdometer).odoBase = s.total := rfl
@[simp] theorem State.foldOdometer_odoRun (s : State) : (s.foldOdometer).odoRun = 0 := rfl
@[simp] theorem State.foldOdometer_pulseRef (s : State) : (s.foldOdometer).pulseRef = s.pulseRef := rfl
@[simp] theorem State.foldOdometer_mTsRef (s : State) : (s.foldOdometer).mTsRef = s.mTsRef := rfl
@[simp] theorem State.foldOdometer_trip0 (s : State) : (s.foldOdometer).trip0 = s.trip0 := rfl
@[simp] theorem State.foldOdometer_trip1 (s : State) : (s.foldOdometer).trip1 = s.trip1 := rfl
@[simp] theorem State.foldOdometer_trip2 (s : State) : (s.foldOdometer).trip2 = s.trip2 := rfl
@[simp] theorem State.foldOdometer_dist0 (s : State) : (s.foldOdometer).dist0 = s.dist0 := rfl
@[simp] theorem State.foldOdometer_dist1 (s : State) : (s.foldOdometer).dist1 = s.dist1 := rfl
@[simp] theorem State.foldOdometer_dist2 (s : State) : (s.foldOdometer).dist2 = s.dist2 := rfl
@[simp] theorem State.foldOdometer_speed (s : State) : (s.foldOdometer).speed = s.speed := rfl
@[simp] theorem State.foldOdometer_eTsRef (s : State) : (s.foldOdometer).eTsRef = s.eTsRef := rfl
@[simp] theorem State.foldOdometer_eaccC (s : State) : (s.foldOdometer).eaccC = s.eaccC := rfl
@[simp] theorem State.foldOdometer_eaccR (s : State) : (s.foldOdometer).eaccR = s.eaccR := rfl
@[simp] theorem State.foldOdometer_etotC (s : State) : (s.foldOdometer).etotC = s.etotC := rfl
@[simp] theorem State.foldOdometer_etotR (s : State) : (s.foldOdometer).etotR = s.etotR := rfl
@[simp] theorem State.foldOdometer_norm (s : State) : (s.foldOdometer).norm = s.norm := rfl
@[simp] theorem State.foldOdometer_pending (s : State) : (s.foldOdometer).pending = s.pending := rfl
@[simp] theorem State.foldOdometer_replies (s : State) : (s.foldOdometer).replies = s.replies := rfl

@[simp] theorem State.applyElectric_status (s : State) : (s.applyElectric).status = s.status := rfl
@[simp] theorem State.applyElectric_decErrCnt (s : State) : (s.applyElectric).decErrCnt = s.decErrCnt := rfl
@[simp] theorem State.applyElectric_currInv (s : State) : (s.applyElectric).currInv = s.currInv := rfl
@[simp] theorem State.applyElectric_frameLo (s : State) : (s.applyElectric).frameLo = s.frameLo := rfl
@[simp] theorem State.applyElectric_frameHi (s : State) : (s.applyElectric).frameHi = s.frameHi := rfl
@[simp] theorem State.applyElectric_argA (s : State) : (s.applyElectric).argA = s.argA := rfl
@[simp] theorem State.applyElectric_argB (s : State) : (s.applyElectric).argB = s.argB := rfl
@[simp] theorem State.applyElectric_result (s : State) : (s.applyElectric).result = s.result := rfl
@[simp] theorem State.applyElectric_eTs (s : State) : (s.applyElectric).eTs = s.eTs := rfl
@[simp] theorem State.applyElectric_eVolt (s : State) : (s.applyElectric).eVolt = s.eVolt := rfl
@[simp] theorem State.applyElectric_eCurr (s : State) : (s.applyElectric).eCurr = s.eCurr := rfl
@[simp] theorem State.applyElectric_eFaults (s : State) : (s.applyElectric).eFaults = s.eFaults := rfl
@[simp] theorem State.applyElectric_eSeq (s : State) : (s.applyElectric).eSeq = s.eSeq := rfl
@[simp] theorem State.applyElectric_mTs (s : State) : (s.applyElectric).mTs = s.mTs := rfl
@[simp] theorem State.applyElectric_mPulses (s : State) : (s.applyElectric).mPulses = s.mPulses := rfl
@[simp] theorem State.applyElectric_mSeq (s : State) : (s.applyElectric).mSeq = s.mSeq := rfl
@[simp] theorem State.applyElectric_sT0 (s : State) : (s.applyElectric).sT0 = s.sT0 := rfl
@[simp] theorem State.applyElectric_sT1 (s : State) : (s.applyElectric).sT1 = s.sT1 := rfl
@[simp] theorem State.applyElectric_sT2 (s : State) : (s.applyElectric).sT2 = s.sT2 := rfl
@[simp] theorem State.applyElectric_ppr (s : State) : (s.applyElectric).ppr = s.ppr := rfl
@[simp] theorem State.applyElectric_mmpr (s : State) : (s.applyElectric).mmpr = s.mmpr := rfl
@[simp] theorem State.applyElectric_minTravelM (s : State) : (s.applyElectric).minTravelM = s.minTravelM := rfl
@[simp] theorem State.applyElectric_odoBase (s : State) : (s.applyElectric).odoBase = s.odoBase := rfl
@[simp] theorem State.applyElectric_odoRun (s : State) : (s.applyElectric).odoRun = s.odoRun := rfl
@[simp] theorem State.applyElectric_pulseRef (s : State) : (s.applyElectric).pulseRef = s.pulseRef := rfl
@[simp] theorem State.applyElectric_mTsRef (s : State) : (s.applyElectric).mTsRef = s.mTsRef := rfl
@[simp] theorem State.applyElectric_trip0 (s : State) : (s.applyElectric).trip0 = s.trip0 := rfl
@[simp] theorem State.applyElectric_trip1 (s : State) : (s.applyElectric).trip1 = s.trip1 := rfl
@[simp] theorem State.applyElectric_trip2 (s : State) : (s.applyElectric).trip2 = s.trip2 := rfl
@[simp] theorem State.applyElectric_dist0 (s : State) : (s.applyElectric).dist0 = s.dist0 := rfl
@[simp] theorem State.applyElectric_dist1 (s : State) : (s.applyElectric).dist1 = s.dist1 := rfl
@[simp] theorem State.applyElectric_dist2 (s : State) : (s.applyElectric).dist2 = s.dist2 := rfl
@[simp] theorem State.applyElectric_speed (s : State) : (s.applyElectric).speed = s.speed := rfl
@[simp] theorem State.applyElectric_eTsRef (s : State) : (s.applyElectric).eTsRef = s.eTs.setWidth 13 := rfl
@[simp] theorem State.applyElectric_eaccC (s : State) :
    (s.applyElectric).eaccC = if 0 < s.sampleCurrent then s.eaccC + s.sampleEnergy else s.eaccC := rfl
@[simp] theorem State.applyElectric_eaccR (s : State) :
    (s.applyElectric).eaccR = if s.sampleCurrent < 0 then s.eaccR + s.sampleEnergy else s.eaccR := rfl
@[simp] theorem State.applyElectric_etotC (s : State) : (s.applyElectric).etotC = s.etotC := rfl
@[simp] theorem State.applyElectric_etotR (s : State) : (s.applyElectric).etotR = s.etotR := rfl
@[simp] theorem State.applyElectric_norm (s : State) : (s.applyElectric).norm = s.norm := rfl
@[simp] theorem State.applyElectric_pending (s : State) : (s.applyElectric).pending = s.pending := rfl
@[simp] theorem State.applyElectric_replies (s : State) : (s.applyElectric).replies = s.replies := rfl

@[simp] theorem State.foldEnergy_status (s : State) : (s.foldEnergy).status = s.status := rfl
@[simp] theorem State.foldEnergy_decErrCnt (s : State) : (s.foldEnergy).decErrCnt = s.decErrCnt := rfl
@[simp] theorem State.foldEnergy_currInv (s : State) : (s.foldEnergy).currInv = s.currInv := rfl
@[simp] theorem State.foldEnergy_frameLo (s : State) : (s.foldEnergy).frameLo = s.frameLo := rfl
@[simp] theorem State.foldEnergy_frameHi (s : State) : (s.foldEnergy).frameHi = s.frameHi := rfl
@[simp] theorem State.foldEnergy_argA (s : State) : (s.foldEnergy).argA = s.argA := rfl
@[simp] theorem State.foldEnergy_argB (s : State) : (s.foldEnergy).argB = s.argB := rfl
@[simp] theorem State.foldEnergy_result (s : State) : (s.foldEnergy).result = s.result := rfl
@[simp] theorem State.foldEnergy_eTs (s : State) : (s.foldEnergy).eTs = s.eTs := rfl
@[simp] theorem State.foldEnergy_eVolt (s : State) : (s.foldEnergy).eVolt = s.eVolt := rfl
@[simp] theorem State.foldEnergy_eCurr (s : State) : (s.foldEnergy).eCurr = s.eCurr := rfl
@[simp] theorem State.foldEnergy_eFaults (s : State) : (s.foldEnergy).eFaults = s.eFaults := rfl
@[simp] theorem State.foldEnergy_eSeq (s : State) : (s.foldEnergy).eSeq = s.eSeq := rfl
@[simp] theorem State.foldEnergy_mTs (s : State) : (s.foldEnergy).mTs = s.mTs := rfl
@[simp] theorem State.foldEnergy_mPulses (s : State) : (s.foldEnergy).mPulses = s.mPulses := rfl
@[simp] theorem State.foldEnergy_mSeq (s : State) : (s.foldEnergy).mSeq = s.mSeq := rfl
@[simp] theorem State.foldEnergy_sT0 (s : State) : (s.foldEnergy).sT0 = s.sT0 := rfl
@[simp] theorem State.foldEnergy_sT1 (s : State) : (s.foldEnergy).sT1 = s.sT1 := rfl
@[simp] theorem State.foldEnergy_sT2 (s : State) : (s.foldEnergy).sT2 = s.sT2 := rfl
@[simp] theorem State.foldEnergy_ppr (s : State) : (s.foldEnergy).ppr = s.ppr := rfl
@[simp] theorem State.foldEnergy_mmpr (s : State) : (s.foldEnergy).mmpr = s.mmpr := rfl
@[simp] theorem State.foldEnergy_minTravelM (s : State) : (s.foldEnergy).minTravelM = s.minTravelM := rfl
@[simp] theorem State.foldEnergy_odoBase (s : State) : (s.foldEnergy).odoBase = s.odoBase := rfl
@[simp] theorem State.foldEnergy_odoRun (s : State) : (s.foldEnergy).odoRun = s.odoRun := rfl
@[simp] theorem State.foldEnergy_pulseRef (s : State) : (s.foldEnergy).pulseRef = s.pulseRef := rfl
@[simp] theorem State.foldEnergy_mTsRef (s : State) : (s.foldEnergy).mTsRef = s.mTsRef := rfl
@[simp] theorem State.foldEnergy_trip0 (s : State) : (s.foldEnergy).trip0 = s.trip0 := rfl
@[simp] theorem State.foldEnergy_trip1 (s : State) : (s.foldEnergy).trip1 = s.trip1 := rfl
@[simp] theorem State.foldEnergy_trip2 (s : State) : (s.foldEnergy).trip2 = s.trip2 := rfl
@[simp] theorem State.foldEnergy_dist0 (s : State) : (s.foldEnergy).dist0 = s.dist0 := rfl
@[simp] theorem State.foldEnergy_dist1 (s : State) : (s.foldEnergy).dist1 = s.dist1 := rfl
@[simp] theorem State.foldEnergy_dist2 (s : State) : (s.foldEnergy).dist2 = s.dist2 := rfl
@[simp] theorem State.foldEnergy_speed (s : State) : (s.foldEnergy).speed = s.speed := rfl
@[simp] theorem State.foldEnergy_eTsRef (s : State) : (s.foldEnergy).eTsRef = s.eTsRef := rfl
@[simp] theorem State.foldEnergy_eaccC (s : State) : (s.foldEnergy).eaccC = 0 := rfl
@[simp] theorem State.foldEnergy_eaccR (s : State) : (s.foldEnergy).eaccR = 0 := rfl
@[simp] theorem State.foldEnergy_etotC (s : State) : (s.foldEnergy).etotC = s.etotC + s.eaccC := rfl
@[simp] theorem State.foldEnergy_etotR (s : State) : (s.foldEnergy).etotR = s.etotR + s.eaccR := rfl
@[simp] theorem State.foldEnergy_norm (s : State) :
    (s.foldEnergy).norm = normOf (s.etotC + s.eaccC) (s.etotR + s.eaccR) s.argA := rfl
@[simp] theorem State.foldEnergy_pending (s : State) : (s.foldEnergy).pending = s.pending := rfl
@[simp] theorem State.foldEnergy_replies (s : State) : (s.foldEnergy).replies = s.replies := rfl

@[simp] theorem State.resetBlock_status (s : State) : (s.resetBlock).status = State.reset.status := rfl
@[simp] theorem State.resetBlock_decErrCnt (s : State) : (s.resetBlock).decErrCnt = State.reset.decErrCnt := rfl
@[simp] theorem State.resetBlock_currInv (s : State) : (s.resetBlock).currInv = State.reset.currInv := rfl
@[simp] theorem State.resetBlock_frameLo (s : State) : (s.resetBlock).frameLo = State.reset.frameLo := rfl
@[simp] theorem State.resetBlock_frameHi (s : State) : (s.resetBlock).frameHi = State.reset.frameHi := rfl
@[simp] theorem State.resetBlock_argA (s : State) : (s.resetBlock).argA = State.reset.argA := rfl
@[simp] theorem State.resetBlock_argB (s : State) : (s.resetBlock).argB = State.reset.argB := rfl
@[simp] theorem State.resetBlock_result (s : State) : (s.resetBlock).result = State.reset.result := rfl
@[simp] theorem State.resetBlock_eTs (s : State) : (s.resetBlock).eTs = State.reset.eTs := rfl
@[simp] theorem State.resetBlock_eVolt (s : State) : (s.resetBlock).eVolt = State.reset.eVolt := rfl
@[simp] theorem State.resetBlock_eCurr (s : State) : (s.resetBlock).eCurr = State.reset.eCurr := rfl
@[simp] theorem State.resetBlock_eFaults (s : State) : (s.resetBlock).eFaults = State.reset.eFaults := rfl
@[simp] theorem State.resetBlock_eSeq (s : State) : (s.resetBlock).eSeq = State.reset.eSeq := rfl
@[simp] theorem State.resetBlock_mTs (s : State) : (s.resetBlock).mTs = State.reset.mTs := rfl
@[simp] theorem State.resetBlock_mPulses (s : State) : (s.resetBlock).mPulses = State.reset.mPulses := rfl
@[simp] theorem State.resetBlock_mSeq (s : State) : (s.resetBlock).mSeq = State.reset.mSeq := rfl
@[simp] theorem State.resetBlock_sT0 (s : State) : (s.resetBlock).sT0 = State.reset.sT0 := rfl
@[simp] theorem State.resetBlock_sT1 (s : State) : (s.resetBlock).sT1 = State.reset.sT1 := rfl
@[simp] theorem State.resetBlock_sT2 (s : State) : (s.resetBlock).sT2 = State.reset.sT2 := rfl
@[simp] theorem State.resetBlock_ppr (s : State) : (s.resetBlock).ppr = State.reset.ppr := rfl
@[simp] theorem State.resetBlock_mmpr (s : State) : (s.resetBlock).mmpr = State.reset.mmpr := rfl
@[simp] theorem State.resetBlock_minTravelM (s : State) : (s.resetBlock).minTravelM = State.reset.minTravelM := rfl
@[simp] theorem State.resetBlock_odoBase (s : State) : (s.resetBlock).odoBase = State.reset.odoBase := rfl
@[simp] theorem State.resetBlock_odoRun (s : State) : (s.resetBlock).odoRun = State.reset.odoRun := rfl
@[simp] theorem State.resetBlock_pulseRef (s : State) : (s.resetBlock).pulseRef = State.reset.pulseRef := rfl
@[simp] theorem State.resetBlock_mTsRef (s : State) : (s.resetBlock).mTsRef = State.reset.mTsRef := rfl
@[simp] theorem State.resetBlock_trip0 (s : State) : (s.resetBlock).trip0 = State.reset.trip0 := rfl
@[simp] theorem State.resetBlock_trip1 (s : State) : (s.resetBlock).trip1 = State.reset.trip1 := rfl
@[simp] theorem State.resetBlock_trip2 (s : State) : (s.resetBlock).trip2 = State.reset.trip2 := rfl
@[simp] theorem State.resetBlock_dist0 (s : State) : (s.resetBlock).dist0 = State.reset.dist0 := rfl
@[simp] theorem State.resetBlock_dist1 (s : State) : (s.resetBlock).dist1 = State.reset.dist1 := rfl
@[simp] theorem State.resetBlock_dist2 (s : State) : (s.resetBlock).dist2 = State.reset.dist2 := rfl
@[simp] theorem State.resetBlock_speed (s : State) : (s.resetBlock).speed = State.reset.speed := rfl
@[simp] theorem State.resetBlock_eTsRef (s : State) : (s.resetBlock).eTsRef = State.reset.eTsRef := rfl
@[simp] theorem State.resetBlock_eaccC (s : State) : (s.resetBlock).eaccC = State.reset.eaccC := rfl
@[simp] theorem State.resetBlock_eaccR (s : State) : (s.resetBlock).eaccR = State.reset.eaccR := rfl
@[simp] theorem State.resetBlock_etotC (s : State) : (s.resetBlock).etotC = State.reset.etotC := rfl
@[simp] theorem State.resetBlock_etotR (s : State) : (s.resetBlock).etotR = State.reset.etotR := rfl
@[simp] theorem State.resetBlock_norm (s : State) : (s.resetBlock).norm = State.reset.norm := rfl
@[simp] theorem State.resetBlock_pending (s : State) : (s.resetBlock).pending = s.pending := rfl
@[simp] theorem State.resetBlock_replies (s : State) : (s.resetBlock).replies = s.replies := rfl

@[simp] theorem State.setPending_status (s : State) (rest : List HostEvent) : (s.setPending rest).status = s.status := rfl
@[simp] theorem State.setPending_decErrCnt (s : State) (rest : List HostEvent) : (s.setPending rest).decErrCnt = s.decErrCnt := rfl
@[simp] theorem State.setPending_currInv (s : State) (rest : List HostEvent) : (s.setPending rest).currInv = s.currInv := rfl
@[simp] theorem State.setPending_frameLo (s : State) (rest : List HostEvent) : (s.setPending rest).frameLo = s.frameLo := rfl
@[simp] theorem State.setPending_frameHi (s : State) (rest : List HostEvent) : (s.setPending rest).frameHi = s.frameHi := rfl
@[simp] theorem State.setPending_argA (s : State) (rest : List HostEvent) : (s.setPending rest).argA = s.argA := rfl
@[simp] theorem State.setPending_argB (s : State) (rest : List HostEvent) : (s.setPending rest).argB = s.argB := rfl
@[simp] theorem State.setPending_result (s : State) (rest : List HostEvent) : (s.setPending rest).result = s.result := rfl
@[simp] theorem State.setPending_eTs (s : State) (rest : List HostEvent) : (s.setPending rest).eTs = s.eTs := rfl
@[simp] theorem State.setPending_eVolt (s : State) (rest : List HostEvent) : (s.setPending rest).eVolt = s.eVolt := rfl
@[simp] theorem State.setPending_eCurr (s : State) (rest : List HostEvent) : (s.setPending rest).eCurr = s.eCurr := rfl
@[simp] theorem State.setPending_eFaults (s : State) (rest : List HostEvent) : (s.setPending rest).eFaults = s.eFaults := rfl
@[simp] theorem State.setPending_eSeq (s : State) (rest : List HostEvent) : (s.setPending rest).eSeq = s.eSeq := rfl
@[simp] theorem State.setPending_mTs (s : State) (rest : List HostEvent) : (s.setPending rest).mTs = s.mTs := rfl
@[simp] theorem State.setPending_mPulses (s : State) (rest : List HostEvent) : (s.setPending rest).mPulses = s.mPulses := rfl
@[simp] theorem State.setPending_mSeq (s : State) (rest : List HostEvent) : (s.setPending rest).mSeq = s.mSeq := rfl
@[simp] theorem State.setPending_sT0 (s : State) (rest : List HostEvent) : (s.setPending rest).sT0 = s.sT0 := rfl
@[simp] theorem State.setPending_sT1 (s : State) (rest : List HostEvent) : (s.setPending rest).sT1 = s.sT1 := rfl
@[simp] theorem State.setPending_sT2 (s : State) (rest : List HostEvent) : (s.setPending rest).sT2 = s.sT2 := rfl
@[simp] theorem State.setPending_ppr (s : State) (rest : List HostEvent) : (s.setPending rest).ppr = s.ppr := rfl
@[simp] theorem State.setPending_mmpr (s : State) (rest : List HostEvent) : (s.setPending rest).mmpr = s.mmpr := rfl
@[simp] theorem State.setPending_minTravelM (s : State) (rest : List HostEvent) : (s.setPending rest).minTravelM = s.minTravelM := rfl
@[simp] theorem State.setPending_odoBase (s : State) (rest : List HostEvent) : (s.setPending rest).odoBase = s.odoBase := rfl
@[simp] theorem State.setPending_odoRun (s : State) (rest : List HostEvent) : (s.setPending rest).odoRun = s.odoRun := rfl
@[simp] theorem State.setPending_pulseRef (s : State) (rest : List HostEvent) : (s.setPending rest).pulseRef = s.pulseRef := rfl
@[simp] theorem State.setPending_mTsRef (s : State) (rest : List HostEvent) : (s.setPending rest).mTsRef = s.mTsRef := rfl
@[simp] theorem State.setPending_trip0 (s : State) (rest : List HostEvent) : (s.setPending rest).trip0 = s.trip0 := rfl
@[simp] theorem State.setPending_trip1 (s : State) (rest : List HostEvent) : (s.setPending rest).trip1 = s.trip1 := rfl
@[simp] theorem State.setPending_trip2 (s : State) (rest : List HostEvent) : (s.setPending rest).trip2 = s.trip2 := rfl
@[simp] theorem State.setPending_dist0 (s : State) (rest : List HostEvent) : (s.setPending rest).dist0 = s.dist0 := rfl
@[simp] theorem State.setPending_dist1 (s : State) (rest : List HostEvent) : (s.setPending rest).dist1 = s.dist1 := rfl
@[simp] theorem State.setPending_dist2 (s : State) (rest : List HostEvent) : (s.setPending rest).dist2 = s.dist2 := rfl
@[simp] theorem State.setPending_speed (s : State) (rest : List HostEvent) : (s.setPending rest).speed = s.speed := rfl
@[simp] theorem State.setPending_eTsRef (s : State) (rest : List HostEvent) : (s.setPending rest).eTsRef = s.eTsRef := rfl
@[simp] theorem State.setPending_eaccC (s : State) (rest : List HostEvent) : (s.setPending rest).eaccC = s.eaccC := rfl
@[simp] theorem State.setPending_eaccR (s : State) (rest : List HostEvent) : (s.setPending rest).eaccR = s.eaccR := rfl
@[simp] theorem State.setPending_etotC (s : State) (rest : List HostEvent) : (s.setPending rest).etotC = s.etotC := rfl
@[simp] theorem State.setPending_etotR (s : State) (rest : List HostEvent) : (s.setPending rest).etotR = s.etotR := rfl
@[simp] theorem State.setPending_norm (s : State) (rest : List HostEvent) : (s.setPending rest).norm = s.norm := rfl
@[simp] theorem State.setPending_pending (s : State) (rest : List HostEvent) : (s.setPending rest).pending = rest := rfl
@[simp] theorem State.setPending_replies (s : State) (rest : List HostEvent) : (s.setPending rest).replies = s.replies := rfl

@[simp] theorem State.addReply_status (s : State) (v : Word) : (s.addReply v).status = s.status := rfl
@[simp] theorem State.addReply_decErrCnt (s : State) (v : Word) : (s.addReply v).decErrCnt = s.decErrCnt := rfl
@[simp] theorem State.addReply_currInv (s : State) (v : Word) : (s.addReply v).currInv = s.currInv := rfl
@[simp] theorem State.addReply_frameLo (s : State) (v : Word) : (s.addReply v).frameLo = s.frameLo := rfl
@[simp] theorem State.addReply_frameHi (s : State) (v : Word) : (s.addReply v).frameHi = s.frameHi := rfl
@[simp] theorem State.addReply_argA (s : State) (v : Word) : (s.addReply v).argA = s.argA := rfl
@[simp] theorem State.addReply_argB (s : State) (v : Word) : (s.addReply v).argB = s.argB := rfl
@[simp] theorem State.addReply_result (s : State) (v : Word) : (s.addReply v).result = s.result := rfl
@[simp] theorem State.addReply_eTs (s : State) (v : Word) : (s.addReply v).eTs = s.eTs := rfl
@[simp] theorem State.addReply_eVolt (s : State) (v : Word) : (s.addReply v).eVolt = s.eVolt := rfl
@[simp] theorem State.addReply_eCurr (s : State) (v : Word) : (s.addReply v).eCurr = s.eCurr := rfl
@[simp] theorem State.addReply_eFaults (s : State) (v : Word) : (s.addReply v).eFaults = s.eFaults := rfl
@[simp] theorem State.addReply_eSeq (s : State) (v : Word) : (s.addReply v).eSeq = s.eSeq := rfl
@[simp] theorem State.addReply_mTs (s : State) (v : Word) : (s.addReply v).mTs = s.mTs := rfl
@[simp] theorem State.addReply_mPulses (s : State) (v : Word) : (s.addReply v).mPulses = s.mPulses := rfl
@[simp] theorem State.addReply_mSeq (s : State) (v : Word) : (s.addReply v).mSeq = s.mSeq := rfl
@[simp] theorem State.addReply_sT0 (s : State) (v : Word) : (s.addReply v).sT0 = s.sT0 := rfl
@[simp] theorem State.addReply_sT1 (s : State) (v : Word) : (s.addReply v).sT1 = s.sT1 := rfl
@[simp] theorem State.addReply_sT2 (s : State) (v : Word) : (s.addReply v).sT2 = s.sT2 := rfl
@[simp] theorem State.addReply_ppr (s : State) (v : Word) : (s.addReply v).ppr = s.ppr := rfl
@[simp] theorem State.addReply_mmpr (s : State) (v : Word) : (s.addReply v).mmpr = s.mmpr := rfl
@[simp] theorem State.addReply_minTravelM (s : State) (v : Word) : (s.addReply v).minTravelM = s.minTravelM := rfl
@[simp] theorem State.addReply_odoBase (s : State) (v : Word) : (s.addReply v).odoBase = s.odoBase := rfl
@[simp] theorem State.addReply_odoRun (s : State) (v : Word) : (s.addReply v).odoRun = s.odoRun := rfl
@[simp] theorem State.addReply_pulseRef (s : State) (v : Word) : (s.addReply v).pulseRef = s.pulseRef := rfl
@[simp] theorem State.addReply_mTsRef (s : State) (v : Word) : (s.addReply v).mTsRef = s.mTsRef := rfl
@[simp] theorem State.addReply_trip0 (s : State) (v : Word) : (s.addReply v).trip0 = s.trip0 := rfl
@[simp] theorem State.addReply_trip1 (s : State) (v : Word) : (s.addReply v).trip1 = s.trip1 := rfl
@[simp] theorem State.addReply_trip2 (s : State) (v : Word) : (s.addReply v).trip2 = s.trip2 := rfl
@[simp] theorem State.addReply_dist0 (s : State) (v : Word) : (s.addReply v).dist0 = s.dist0 := rfl
@[simp] theorem State.addReply_dist1 (s : State) (v : Word) : (s.addReply v).dist1 = s.dist1 := rfl
@[simp] theorem State.addReply_dist2 (s : State) (v : Word) : (s.addReply v).dist2 = s.dist2 := rfl
@[simp] theorem State.addReply_speed (s : State) (v : Word) : (s.addReply v).speed = s.speed := rfl
@[simp] theorem State.addReply_eTsRef (s : State) (v : Word) : (s.addReply v).eTsRef = s.eTsRef := rfl
@[simp] theorem State.addReply_eaccC (s : State) (v : Word) : (s.addReply v).eaccC = s.eaccC := rfl
@[simp] theorem State.addReply_eaccR (s : State) (v : Word) : (s.addReply v).eaccR = s.eaccR := rfl
@[simp] theorem State.addReply_etotC (s : State) (v : Word) : (s.addReply v).etotC = s.etotC := rfl
@[simp] theorem State.addReply_etotR (s : State) (v : Word) : (s.addReply v).etotR = s.etotR := rfl
@[simp] theorem State.addReply_norm (s : State) (v : Word) : (s.addReply v).norm = s.norm := rfl
@[simp] theorem State.addReply_pending (s : State) (v : Word) : (s.addReply v).pending = s.pending := rfl
@[simp] theorem State.addReply_replies (s : State) (v : Word) : (s.addReply v).replies = s.replies ++ [v] := rfl

end Sys2Proof.Machine
end

