-- ==== Sys2Proof/Laws/Bus.lean ====
section
/-! SUPPORT. The register map, the host's accesses, and what one step can do, said once. -/

namespace Sys2Proof.Machine

/-! ### The register map (10_state.md R22) -/

/-- No two registers share an offset. -/
@[simp] theorem regAt_offset (r : Reg) : regAt r.offset = some r := by cases r <;> rfl

theorem regAt_eq_some {off : Offset} {r : Reg} : regAt off = some r ↔ r.offset = off := by
  constructor
  · intro h
    have := List.find?_some h
    simpa using this
  · rintro rfl; simp

@[simp] theorem mem_all (r : Reg) : r ∈ Reg.all := by cases r <;> simp [Reg.all]

/-- The reserved offsets are those of no register (10_state.md R48). -/
theorem regAt_eq_none {off : Offset} : regAt off = none ↔ ∀ r : Reg, r.offset ≠ off := by
  simp [regAt, List.find?_eq_none]

theorem offset_injective {r r' : Reg} (h : r.offset = r'.offset) : r = r' := by
  have := regAt_offset r
  rw [h, regAt_offset] at this
  exact (Option.some.inj this).symm

@[simp] theorem readOffset_offset (s : State) (r : Reg) : s.readOffset r.offset = s.readReg r := by
  simp [State.readOffset]

/-- Two states whose registers read alike read alike at every offset. -/
theorem readOffset_congr {s t : State} {off : Offset}
    (h : ∀ r : Reg, r.offset = off → t.readReg r = s.readReg r) : t.readOffset off = s.readOffset off := by
  unfold State.readOffset
  cases hr : regAt off with
  | none => rfl
  | some r => exact h r (regAt_eq_some.1 hr)

/-! ### Storing a register -/

/-- A write to a register that is not RW changes nothing (10_state.md R49). -/
theorem writeReg_of_not_rw {r : Reg} (h : r.access ≠ .rw) (s : State) (v : Word) : s.writeReg v r = s := by
  cases r <;> first | rfl | exact absurd rfl h

/-- A write to a full 32-bit register reads back whole (10_state.md R22, R35). -/
theorem readReg_writeReg_same {r : Reg} (h : r.access = .rw) (hc : r ≠ .cfg) (hp : r ≠ .ppr) (hm : r ≠ .mmpr)
    (s : State) (v : Word) : (s.writeReg v r).readReg r = v := by
  cases r <;> first | rfl | contradiction | simp [State.writeReg, State.readReg]

/-- A write to one register leaves every other one, one half of a pair included (20_memory.md R67). -/
theorem readReg_writeReg_other {r r' : Reg} (h : r' ≠ r) (s : State) (v : Word) :
    (s.writeReg v r).readReg r' = s.readReg r' := by
  by_cases ha : r.access = .rw
  · cases r <;> first | contradiction | skip
    all_goals cases r' <;> first | rfl | contradiction | simp [State.writeReg, State.readReg]
  · rw [writeReg_of_not_rw ha]

@[simp] theorem writeReg_pending (s : State) (v : Word) (r : Reg) : (s.writeReg v r).pending = s.pending := by
  cases r <;> rfl

@[simp] theorem writeReg_replies (s : State) (v : Word) (r : Reg) : (s.writeReg v r).replies = s.replies := by
  cases r <;> rfl

@[simp] theorem writeReg_status (s : State) (v : Word) (r : Reg) : (s.writeReg v r).status = s.status := by
  cases r <;> rfl

theorem warl16_toNat (old : BitVec 16) (v : Word) :
    (warl16 old v).toNat = if v.toNat % 2 ^ 16 = 0 then old.toNat else v.toNat % 2 ^ 16 := by
  have e : v.extractLsb' 0 16 = 0 ↔ v.toNat % 2 ^ 16 = 0 := by
    rw [← BitVec.toNat_inj]; simp
  unfold warl16
  by_cases h : v.toNat % 2 ^ 16 = 0
  · rw [if_pos (e.2 h), if_pos h]
  · rw [if_neg (fun hc => h (e.1 hc)), if_neg h]; simp

/-! ### A write to CMD -/

/-- A command never stops: whatever the term, exec answers a next state (60_exceptions.md R194). -/
theorem exec_next (i : Instr) (s : State) : ∃ t, exec i s = .next t := by
  cases i <;> simp only [exec] <;>
    first
      | exact ⟨_, rfl⟩
      | (unfold execSmEnc; split <;> exact ⟨_, rfl⟩)
      | (unfold execSmDec; split <;> exact ⟨_, rfl⟩)
      | (unfold execTripReset; split <;> exact ⟨_, rfl⟩)
      | (unfold execEFold; split <;> exact ⟨_, rfl⟩)

theorem runCommand_ok {w : Word} {i : Instr} (h : decode w = .ok i) (s : State) : runCommand w s = exec i s := by
  simp [runCommand, h]

theorem runCommand_error {w : Word} {r : Illegal} (h : decode w = .error r) (s : State) :
    runCommand w s = .next s.illegalCommand := by
  simp [runCommand, h]

/-- What a write to CMD can do: run the command the word decodes to, or raise CMD_ERR. -/
theorem runCommand_cases (w : Word) (s : State) :
    (∃ i, decode w = .ok i ∧ runCommand w s = exec i s) ∨
    (∃ r, decode w = .error r ∧ runCommand w s = .next s.illegalCommand) := by
  cases h : decode w with
  | ok i => exact .inl ⟨i, rfl, runCommand_ok h s⟩
  | error r => exact .inr ⟨r, rfl, runCommand_error h s⟩

/-! ### Host accesses -/

@[simp] theorem hostWrite_cmd (v : Word) (s : State) : hostWrite 0x000 v s = runCommand v s := rfl

theorem hostWrite_offset {r : Reg} (h : r ≠ .cmd) (v : Word) (s : State) :
    hostWrite r.offset v s = .next (s.writeReg v r) := by
  cases r <;> simp_all [hostWrite]

theorem hostWrite_reserved {off : Offset} (h : regAt off = none) (v : Word) (s : State) :
    hostWrite off v s = .next s := by
  simp [hostWrite, h]

theorem checkAccess_none {width : AccessWidth} {off : Offset} :
    checkAccess width off = none ↔ width = .bits32 ∧ off.toNat % 4 = 0 := by
  cases width <;> simp [checkAccess]

/-! ### One step -/

theorem step_nil {s : State} (h : s.pending = []) : step s = .next s := by simp [step, h]

theorem step_cons {s : State} {e : HostEvent} {rest : List HostEvent} (h : s.pending = e :: rest) :
    step s = hostEvent e (s.setPending rest) := by simp [step, h]

theorem step_cmd {s : State} {w : Word} {rest : List HostEvent}
    (h : s.pending = .write .bits32 0x000 w :: rest) : step s = runCommand w (s.setPending rest) := by
  rw [step_cons h]; rfl

/-- What an event that answers a next state did: a read, a command, the storing of a register, an ignored write
to a reserved offset, or a reset. -/
theorem hostEvent_next {e : HostEvent} {s t : State} (h : hostEvent e s = .next t) :
    (∃ off, e = .read .bits32 off ∧ off.toNat % 4 = 0 ∧ t = s.addReply (s.readOffset off)) ∨
    (∃ w i, e = .write .bits32 0x000 w ∧ decode w = .ok i ∧ exec i s = .next t) ∨
    (∃ w r, e = .write .bits32 0x000 w ∧ decode w = .error r ∧ t = s.illegalCommand) ∨
    (∃ (r : Reg) (v : Word), r ≠ .cmd ∧ e = .write .bits32 r.offset v ∧ t = s.writeReg v r) ∨
    (∃ off v, regAt off = none ∧ e = .write .bits32 off v ∧ t = s) ∨
    (e = .reset ∧ t = s.resetBlock) := by
  cases e with
  | reset => exact .inr (.inr (.inr (.inr (.inr ⟨rfl, by simpa [hostEvent] using h.symm⟩))))
  | read width off =>
    simp only [hostEvent] at h
    split at h
    · cases h
    · obtain ⟨rfl, ha⟩ := checkAccess_none.1 ‹_›
      exact .inl ⟨off, rfl, ha, by simpa [hostRead] using h.symm⟩
  | write width off v =>
    simp only [hostEvent] at h
    split at h
    · cases h
    · obtain ⟨rfl, ha⟩ := checkAccess_none.1 ‹_›
      cases hr : regAt off with
      | none =>
        rw [hostWrite_reserved hr] at h
        exact .inr (.inr (.inr (.inr (.inl ⟨off, v, hr, rfl, by simpa using h.symm⟩))))
      | some r =>
        obtain rfl := regAt_eq_some.1 hr
        by_cases hc : r = .cmd
        · subst hc
          change runCommand v s = .next t at h
          rcases runCommand_cases v s with ⟨i, hd, hx⟩ | ⟨x, hd, hx⟩
          · exact .inr (.inl ⟨v, i, rfl, hd, by rw [← h, hx]⟩)
          · rw [hx] at h
            exact .inr (.inr (.inl ⟨v, x, rfl, hd, by simpa using h.symm⟩))
        · rw [hostWrite_offset hc] at h
          exact .inr (.inr (.inr (.inl ⟨r, v, hc, rfl, by simpa using h.symm⟩)))

end Sys2Proof.Machine
end

