-- ==== Sys2Proof/Laws/PerInstr.lean ====
section
/-! SUPPORT. The per-instruction family EncodedFields: the word of a command has the command's own OP and ARG
fields, Z = 0, and its OP and ARG name that command in the opcode map (30_encoding.md R80 to R82). -/

namespace Sys2Proof.Laws.EncodedFields

/-- The fields of the encoded word are those of the command. -/
def Statement (i : Instr) : Prop :=
  opField (encode i) = i.op ∧ argField (encode i) = i.arg ∧ zField (encode i) = 0 ∧
    opcodeMap (opField (encode i)) (argField (encode i)) = some i

theorem of_formatC (i : Instr) : Statement i := by
  simp [Statement, encode]

theorem nop : Statement .nop := of_formatC _
theorem encElec : Statement .encElec := of_formatC _
theorem encMotion : Statement .encMotion := of_formatC _
theorem encSensor : Statement .encSensor := of_formatC _
theorem dec : Statement .dec := of_formatC _
theorem smEnc (n : Arg) : Statement (.smEnc n) := of_formatC _
theorem smDec (n : Arg) : Statement (.smDec n) := of_formatC _
theorem delta13 : Statement .delta13 := of_formatC _
theorem delta32 : Statement .delta32 := of_formatC _
theorem pulse2m : Statement .pulse2m := of_formatC _
theorem accMotion : Statement .accMotion := of_formatC _
theorem distUpd : Statement .distUpd := of_formatC _
theorem tripReset (k : Arg) : Statement (.tripReset k) := of_formatC _
theorem odoFold : Statement .odoFold := of_formatC _
theorem accElec : Statement .accElec := of_formatC _
theorem eFold : Statement .eFold := of_formatC _

end Sys2Proof.Laws.EncodedFields
end

