-- ==== Sys2Proof/Laws/Run.lean ====
section
/-! SUPPORT. Runs over a queue of host events, one event at a time (20_memory.md R70). -/

namespace Sys2Proof.Machine

@[simp] theorem run_zero (s : State) : Sys2Proof.core.run 0 s = .next s := rfl

theorem run_of_step {s t : State} (k : Nat) (h : step s = .next t) :
    Sys2Proof.core.run (k + 1) s = Sys2Proof.core.run k t := by
  have h' : Sys2Proof.core.step s = .next t := h
  refine (Host.Core.run.eq_2 Sys2Proof.core s k).trans ?_
  rw [h']

@[simp] theorem u32_toNat (w : Word) : u32 (w.toNat : Int) = w := by simp [u32]

theorem offset_aligned (r : Reg) : r.offset.toNat % 4 = 0 := by cases r <;> rfl

/-- `wr NAME, v` stores into the register (30_encoding.md R98). -/
theorem hostEvent_wr (s : State) {r : Reg} (v : Int) (h : r ≠ .cmd) :
    hostEvent (wr r v) s = .next (s.writeReg (u32 v) r) := by
  simp only [wr, hostEvent, checkAccess, offset_aligned, if_true]
  exact hostWrite_offset h _ _

/-- `rd NAME` returns the register (30_encoding.md R98). -/
theorem hostEvent_rd (s : State) (r : Reg) : hostEvent (rd r) s = .next (s.addReply (s.readReg r)) := by
  simp only [rd, hostEvent, checkAccess, offset_aligned, if_true, hostRead, readOffset_offset]

/-- One `wr` of a program. -/
theorem run_wr (k : Nat) (s : State) {r : Reg} {v : Int} {rest : List HostEvent} (hp : s.pending = wr r v :: rest)
    (h : r ≠ .cmd) : Sys2Proof.core.run (k + 1) s = Sys2Proof.core.run k ((s.setPending rest).writeReg (u32 v) r) :=
  run_of_step k (by rw [step_cons hp, hostEvent_wr _ _ h])

/-- One `rd` of a program. -/
theorem run_rd (k : Nat) (s : State) {r : Reg} {rest : List HostEvent} (hp : s.pending = rd r :: rest) :
    Sys2Proof.core.run (k + 1) s = Sys2Proof.core.run k ((s.setPending rest).addReply (s.readReg r)) :=
  run_of_step k (by rw [step_cons hp, hostEvent_rd]; cases r <;> rfl)

/-- One `cmd` of a program, for a command that answers t. -/
theorem run_command (k : Nat) (s : State) {i : Instr} {t : State} {rest : List HostEvent} (hp : s.pending = cmd i :: rest)
    (hd : decode (encode i) = .ok i) (ht : exec i (s.setPending rest) = .next t) :
    Sys2Proof.core.run (k + 1) s = Sys2Proof.core.run k t :=
  run_of_step k (by rw [step_cmd hp, runCommand_ok hd, ht])

/-- A reset in a program. -/
theorem run_reset (k : Nat) (s : State) {rest : List HostEvent} (hp : s.pending = .reset :: rest) :
    Sys2Proof.core.run (k + 1) s = Sys2Proof.core.run k (s.setPending rest).resetBlock :=
  run_of_step k (step_cons hp)

/-- Writing a nonzero 16-bit configuration value stores it (10_state.md R36). -/
theorem warl16_u32 {b : BitVec 16} (h : 1 ≤ b.toNat) (old : BitVec 16) : warl16 old (u32 (b.toNat : Int)) = b := by
  have e : (u32 (b.toNat : Int)).extractLsb' 0 16 = b := by
    apply BitVec.eq_of_toNat_eq
    have := b.isLt
    simp [u32]
    omega
  have h0 : b ≠ 0 := by rintro rfl; simp at h
  simp only [warl16, e]
  exact if_neg h0

end Sys2Proof.Machine
end

