-- ==== Sys2Proof/Tests/Slice0.lean ====
section
/-! SUPPORT. The model's own tests, from the spec's worked values (95_test_vectors.md unless another file is named):
the checks of WellFormed, each command's word, at most two one-step tests a command, and for each statement with
hypotheses the concrete states and operands that meet them. -/

namespace Sys2Proof.Tests

open Sys2Proof Sys2Proof.Machine Sys2Proof.Claims

/-- The outcome is a next state of which p holds. -/
def nextIs (o : Host.Outcome State Fault Refusal) (p : State → Bool) : Bool :=
  match o with
  | .next t => p t
  | .fault _ => false
  | .refused _ => false

/-- The reset state with these host events pending. -/
def queued (es : List HostEvent) : State := { State.reset with pending := es }

/-- The host event that writes the word w to CMD. -/
def cmdWord (w : Word) : HostEvent := .write .bits32 0x000 w

/-! ### WellFormed (30_encoding.md R83): each check refuses an ill-formed term and admits its boundary values -/

theorem test_wellFormed_smEnc : (Instr.smEnc 1).wellFormed = false ∧ (Instr.smEnc 33).wellFormed = false ∧
    (Instr.smEnc 2).wellFormed = true ∧ (Instr.smEnc 32).wellFormed = true := by decide

theorem test_wellFormed_smDec : (Instr.smDec 1).wellFormed = false ∧ (Instr.smDec 63).wellFormed = false ∧
    (Instr.smDec 2).wellFormed = true ∧ (Instr.smDec 32).wellFormed = true := by decide

theorem test_wellFormed_tripReset : (Instr.tripReset 3).wellFormed = false ∧
    (Instr.tripReset 0).wellFormed = true ∧ (Instr.tripReset 2).wellFormed = true := by decide

/-! ### Decoding: words written out from 30_encoding.md R80 and R82 (Z, ARG, OP) -/

theorem test_decode_codec_words :
    decode (0b000000000000000000#18 ++ 0b000000#6 ++ 0b00000000#8) = .ok .nop ∧
    decode (0b000000000000000000#18 ++ 0b000000#6 ++ 0b00000001#8) = .ok .encElec ∧
    decode (0b000000000000000000#18 ++ 0b000000#6 ++ 0b00000010#8) = .ok .encMotion ∧
    decode (0b000000000000000000#18 ++ 0b000000#6 ++ 0b00000011#8) = .ok .encSensor ∧
    decode (0b000000000000000000#18 ++ 0b000000#6 ++ 0b00000100#8) = .ok .dec := by decide

theorem test_decode_sign_magnitude_words :
    decode (0b000000000000000000#18 ++ 0b001110#6 ++ 0b00000101#8) = .ok (.smEnc 14) ∧
    decode (0b000000000000000000#18 ++ 0b100000#6 ++ 0b00000101#8) = .ok (.smEnc 32) ∧
    decode (0b000000000000000000#18 ++ 0b001001#6 ++ 0b00000110#8) = .ok (.smDec 9) ∧
    decode (0b000000000000000000#18 ++ 0b000010#6 ++ 0b00000110#8) = .ok (.smDec 2) := by decide

theorem test_decode_accumulator_words :
    decode (0b000000000000000000#18 ++ 0b000000#6 ++ 0b00010000#8) = .ok .delta13 ∧
    decode (0b000000000000000000#18 ++ 0b000000#6 ++ 0b00010001#8) = .ok .delta32 ∧
    decode (0b000000000000000000#18 ++ 0b000000#6 ++ 0b00010010#8) = .ok .pulse2m ∧
    decode (0b000000000000000000#18 ++ 0b000000#6 ++ 0b00010011#8) = .ok .accMotion ∧
    decode (0b000000000000000000#18 ++ 0b000000#6 ++ 0b00010100#8) = .ok .distUpd := by decide

theorem test_decode_odometer_and_energy_words :
    decode (0b000000000000000000#18 ++ 0b000000#6 ++ 0b00010101#8) = .ok (.tripReset 0) ∧
    decode (0b000000000000000000#18 ++ 0b000001#6 ++ 0b00010101#8) = .ok (.tripReset 1) ∧
    decode (0b000000000000000000#18 ++ 0b000010#6 ++ 0b00010101#8) = .ok (.tripReset 2) ∧
    decode (0b000000000000000000#18 ++ 0b000000#6 ++ 0b00010110#8) = .ok .odoFold ∧
    decode (0b000000000000000000#18 ++ 0b000000#6 ++ 0b00010111#8) = .ok .accElec ∧
    decode (0b000000000000000000#18 ++ 0b000000#6 ++ 0b00011000#8) = .ok .eFold := by decide

/-- The illegal words of L2.8, each rejected for the reason given there. -/
theorem test_decode_rejects_bad_arguments :
    decode 0x00000100 = .error (.badArg 0x00 1) ∧ decode 0x00000114 = .error (.badArg 0x14 1) ∧
    decode 0x00004000 = .error .zNonzero ∧ decode 0x80000001 = .error .zNonzero ∧
    decode 0x00000105 = .error (.badArg 0x05 1) ∧ decode 0x00002105 = .error (.badArg 0x05 33) ∧
    decode 0x00003F06 = .error (.badArg 0x06 63) ∧ decode 0x00000315 = .error (.badArg 0x15 3) := by decide

theorem test_decode_rejects_reserved_opcodes :
    decode 0x00000007 = .error (.reservedOpcode 0x07) ∧ decode 0x0000000F = .error (.reservedOpcode 0x0F) ∧
    decode 0x00000019 = .error (.reservedOpcode 0x19) ∧ decode 0x00000020 = .error (.reservedOpcode 0x20) ∧
    decode 0x000000FF = .error (.reservedOpcode 0xFF) := by decide

theorem test_decodeTableWord : decodeTableWord 32 0x00000E05 = some (.smEnc 14) ∧
    decodeTableWord 32 0x00000007 = none ∧ decodeTableWord 8 0x17 = some .accElec := by decide

/-- The next step after reset runs the word placed by withFetchWord: DEC of the all-zero frame, whose kind 0 is
unrecognized (40_codec.md R124). -/
theorem test_step_runs_the_fetched_word :
    nextIs (step (State.reset.withFetchWord 32 0x00000004)) (fun t =>
      t.decErrCnt == 1 && t.status.kindErr && t.pending.isEmpty) = true := by decide

/-- Mnemonics are case-insensitive and the operand is decimal (30_encoding.md R97). -/
theorem test_assemble_lines :
    assemble "cmd".toList = none ∧ assemble "sm_enc 14".toList = some (.smEnc 14) ∧
    assemble "TRIP_RESET 1".toList = some (.tripReset 1) ∧ assemble "SM_DEC 33".toList = none := by decide

/-! ### One step a command -/

/-- An Electric sample in the field registers. -/
def electric (ts volt cur faults seq : Word) : State :=
  { State.reset with eTs := ts, eVolt := volt, eCurr := cur, eFaults := faults, eSeq := seq }

/-- A Motion sample in the field registers. -/
def motion (ts pulses seq : Word) : State := { State.reset with mTs := ts, mPulses := pulses, mSeq := seq }

/-- A frame in the frame registers. -/
def framed (lo hi : Word) : State := { State.reset with frameLo := lo, frameHi := hi }

/-- The operands of a primitive. -/
def operands (a b : Word) : State := { State.reset with argA := a, argB := b }

/-- The wheel of L1-3: 16 pulses, 1830 mm. -/
def wheel : State := { State.reset with ppr := 16, mmpr := 1830 }

/-- L2.8: any legal command clears CMD_ERR again, and NOP changes nothing else. -/
theorem test_nop : nextIs (exec .nop { wheel with status := { Status.reset with cmdErr := true, mref := true } })
    (fun t => t == { wheel with status := { Status.reset with mref := true } }) = true := by decide

/-- L2.2, ENC_ELEC row 2. -/
theorem test_encElec : nextIs (exec .encElec (electric 1234 840 (-100) 0x405 7)) (fun t =>
    t.frameLo == 0x6904D201 && t.frameHi == 0x0780B032 && !t.status.sat) = true := by decide

/-- L2.2, ENC_ELEC rows 7 and 9: every reduction at once; the current alone saturates. -/
theorem test_encElec_saturates :
    nextIs (exec .encElec (electric 8197 2000 (-9000) 0xFFF 259)) (fun t =>
      t.frameLo == 0xFFE00501 && t.frameHi == 0x03FFFFFF && t.status.sat) = true ∧
    nextIs (exec .encElec (electric 0 0 8192 0 0)) (fun t =>
      t.frameLo == 0x80000001 && t.frameHi == 0x00000FFF && t.status.sat) = true := by decide

/-- L2.2, ENC_MOTION row 3. -/
theorem test_encMotion : nextIs (exec .encMotion (motion 1000 874317 9)) (fun t =>
    t.frameLo == 0xE9A3E802 && t.frameHi == 0x012001AA) = true := by decide

/-- L2.2, ENC_MOTION rows 4 and 5: all ones, and the wraps. -/
theorem test_encMotion_wraps :
    nextIs (exec .encMotion (motion 8191 0xFFFFFFFF 255)) (fun t =>
      t.frameLo == 0xFFFFFF02 && t.frameHi == 0x1FFFFFFF && !t.status.sat) = true ∧
    nextIs (exec .encMotion (motion 8197 7 259)) (fun t =>
      t.frameLo == 0x00E00502 && t.frameHi == 0x00600000) = true := by decide

/-- L2.2, ENC_SENSOR row 2. -/
theorem test_encSensor : nextIs (exec .encSensor { State.reset with sT0 := 40, sT1 := 41, sT2 := -5 }) (fun t =>
    t.frameLo == 0x14522803 && t.frameHi == 0x00000004 && !t.status.sat) = true := by decide

/-- L2.2, ENC_SENSOR row 4. -/
theorem test_encSensor_saturates :
    nextIs (exec .encSensor { State.reset with sT0 := 25, sT1 := -10, sT2 := 300 }) (fun t =>
      t.frameLo == 0xFE141903 && t.frameHi == 0x00000003 && t.status.sat) = true := by decide

/-- L2.3, rows 1, 6 and 9: one frame of each kind. -/
theorem test_dec_kinds :
    nextIs (exec .dec (framed 0x6904D201 0x07001032)) (fun t =>
      t.status.word == 0x00000100 && t.eTs == 1234 && t.eVolt == 840 && t.eCurr == 0xFFFFFF9C &&
      t.eFaults == 0 && t.eSeq == 7) = true ∧
    nextIs (exec .dec (framed 0x0201F402 0xE0200000)) (fun t =>
      t.status.word == 0x00000200 && t.mTs == 500 && t.mPulses == 16 && t.mSeq == 1) = true ∧
    nextIs (exec .dec (framed 0xFE141903 0x00000003)) (fun t =>
      t.status.word == 0x00000300 && t.sT0 == 25 && t.sT1 == 0xFFFFFFF6 && t.sT2 == 255) = true := by decide

/-- L2.3, last rows: kinds 0 and 255 are counted, and the count wraps. -/
theorem test_dec_unrecognized :
    nextIs (exec .dec { framed 0x6904D200 0x07001032 with decErrCnt := 0xFFFFFFFF }) (fun t =>
      t.status.word == 0x00000001 && t.decErrCnt == 0 && t.eTs == 0) = true ∧
    nextIs (exec .dec (framed 0x000000FF 0)) (fun t =>
      t.status.word == 0x0000FF01 && t.decErrCnt == 1) = true := by decide

/-- L2.1: SM_ENC 14 of -9000 and of -100. -/
theorem test_smEnc : nextIs (exec (.smEnc 14) (operands (-9000) 0)) (fun t =>
      t.result == 0x00003FFF && t.status.sat) = true ∧
    nextIs (exec (.smEnc 14) (operands (-100) 0)) (fun t => t.result == 0x00002064 && !t.status.sat) = true := by
  decide

/-- L2.1: the widest and the narrowest width. -/
theorem test_smEnc_widths : nextIs (exec (.smEnc 32) (operands 0x80000000 0)) (fun t =>
      t.result == 0xFFFFFFFF && t.status.sat) = true ∧
    nextIs (exec (.smEnc 2) (operands (-1) 0)) (fun t => t.result == 0x00000003 && !t.status.sat) = true := by
  decide

/-- L2.1: SM_DEC 9 ignores bits 31:9; SM_DEC 14 of 0x3FFF is -8191. -/
theorem test_smDec : nextIs (exec (.smDec 9) (operands 0xFFFFFF05 0)) (fun t => t.result == 0xFFFFFFFB) = true ∧
    nextIs (exec (.smDec 14) (operands 0x3FFF 0)) (fun t => t.result == 0xFFFFE001) = true := by decide

/-- L2.1: the negative zero, and the widest width. -/
theorem test_smDec_widths : nextIs (exec (.smDec 32) (operands 0x80000000 0)) (fun t => t.result == 0) = true ∧
    nextIs (exec (.smDec 32) (operands 0xFFFFFFFF 0)) (fun t => t.result == 0x80000001) = true := by decide

/-- L2.4: bits 31:13 are ignored. -/
theorem test_delta13 : nextIs (exec .delta13 (operands 8190 2)) (fun t => t.result == 4) = true ∧
    nextIs (exec .delta13 (operands 0xFFFFFFFE 0x12340002)) (fun t => t.result == 4) = true := by decide

/-- L2.4. -/
theorem test_delta32 : nextIs (exec .delta32 (operands 0xFFFFFFFE 3)) (fun t => t.result == 5) = true ∧
    nextIs (exec .delta32 (operands 3 0xFFFFFFFE)) (fun t => t.result == 4294967291) = true := by decide

/-- L2.5, rows 5 and 9: multiply first, and divide first. -/
theorem test_pulse2m : nextIs (exec .pulse2m { wheel with argA := 874317 }) (fun t => t.result == 100000) = true ∧
    nextIs (exec .pulse2m { wheel with argA := 874316940 }) (fun t => t.result == 99999998) = true := by decide

/-- L2.5, row 12: the wrap of metres. -/
theorem test_pulse2m_wraps :
    nextIs (exec .pulse2m { State.reset with mmpr := 65535, argA := 0xFFFFFFFF })
      (fun t => t.result == 2297807437) = true := by decide

/-- L2.6: the first sample alone only sets the references. -/
theorem test_accMotion_first : nextIs (exec .accMotion (motion 77 123456 0)) (fun t =>
    t.odoRun == 0 && t.speed == 0 && t.pulseRef == 123456 && t.mTsRef == 77 && t.status.word == 0x00000008 &&
    t.dist0 == 0) = true := by decide

/-- L2.6: later samples, a zero time among them. -/
theorem test_accMotion_later :
    nextIs (exec .accMotion { wheel with
      status := { Status.reset with mref := true }, mTsRef := 100, pulseRef := 1000, mTs := 600, mPulses := 1016 })
      (fun t => t.speed == 131 && t.odoRun == 16 && t.dist0 == 1) = true ∧
    nextIs (exec .accMotion { wheel with
      status := { Status.reset with mref := true }, mTsRef := 100, pulseRef := 1000, mTs := 100, mPulses := 1016 })
      (fun t => t.speed == 65880 && t.odoRun == 16 && t.dist0 == 1) = true := by decide

/-- L2.6, DIST_UPD. -/
theorem test_distUpd : nextIs (exec .distUpd { wheel with odoBase := 874317, trip1 := 874317, trip2 := 437158 })
    (fun t => t.dist0 == 100000 && t.dist1 == 0 && t.dist2 == 50000) = true := by decide

/-- L2.6, TRIP_RESET 1. -/
theorem test_tripReset : nextIs (exec (.tripReset 1) { State.reset with odoBase := 100, odoRun := 60, dist1 := 9 })
    (fun t => t == { State.reset with odoBase := 100, odoRun := 60, trip1 := 160 }) = true := by decide

/-- L2.6, ODO_FOLD, with and without a wrap. -/
theorem test_odoFold :
    nextIs (exec .odoFold { State.reset with odoBase := 100, odoRun := 60 })
      (fun t => t == { State.reset with odoBase := 160 }) = true ∧
    nextIs (exec .odoFold { State.reset with odoBase := 0xFFFFFFF0, odoRun := 0x20 })
      (fun t => t.odoBase == 0x10 && t.odoRun == 0) = true := by decide

/-- L2.7: the first sample, and a sample 50 ms later. -/
theorem test_accElec :
    nextIs (exec .accElec (electric 1000 840 100 0 0))
      (fun t => t.eaccC == 0 && t.eTsRef == 1000 && t.status.word == 0x00000010) = true ∧
    nextIs (exec .accElec { electric 1050 840 100 0 0 with
      status := { Status.reset with eref := true }, eTsRef := 1000 })
      (fun t => t.eaccC == 4200000 && t.eaccR == 0) = true := by decide

/-- L2.7: an inverted most negative current, and a wrapped timestamp with a negative one. -/
theorem test_accElec_signs :
    nextIs (exec .accElec { electric 10 1 0x80000000 0 0 with
      status := { Status.reset with eref := true }, currInv := true })
      (fun t => t.eaccC == 21474836480 && t.eaccR == 0) = true ∧
    nextIs (exec .accElec { electric 8 600 (-50) 0 0 with
      status := { Status.reset with eref := true }, eTsRef := 8150 })
      (fun t => t.eaccC == 0 && t.eaccR == 1500000) = true := by decide

/-- L2.7: the 100 km scenario, and the clamp. -/
theorem test_eFold :
    nextIs (exec .eFold { operands 100000 0 with eaccC := 2295090000000 })
      (fun t => t.norm == 637 && t.etotC == 2295090000000 && t.eaccC == 0) = true ∧
    nextIs (exec .eFold { operands 1 0 with eaccR := 100000000000000 })
      (fun t => t.norm == 0x80000000) = true := by decide

/-- L2.7: truncation toward zero, and the gate at equality. -/
theorem test_eFold_gate :
    nextIs (exec .eFold { operands 1 0 with eaccR := 35999 })
      (fun t => t.norm == 0 && t.etotR == 35999) = true ∧
    nextIs (exec .eFold { operands 100 0 with minTravelM := 100, etotC := 5 })
      (fun t => t.status.word == 0x00000020 && t.etotC == 5 && t.norm == 0) = true := by decide

/-! ### The bus (L2.9) -/

theorem test_write_ppr :
    nextIs (hostWrite 0x080 0x12340000 wheel) (fun t => t.ppr == 16) = true ∧
    nextIs (hostWrite 0x080 0x0001FFFF wheel) (fun t => t.ppr == 0xFFFF) = true := by decide

theorem test_register_access :
    nextIs (hostWrite 0x00C 0xFFFFFFFF State.reset) (fun t => t.readOffset 0x00C == 1) = true ∧
    nextIs (hostWrite 0x094 5 State.reset) (fun t => t.readOffset 0x094 == 0) = true ∧
    nextIs (hostWrite 0x0FC 0 State.reset) (fun t => t.readOffset 0x0FC == 0x0FCA0007) = true ∧
    wheel.readOffset 0x000 = 0 ∧ wheel.readOffset 0x024 = 0 := by decide

/-- L2.8: an illegal word after a saturation. -/
theorem test_illegal_word :
    nextIs (step (queued [cmdWord 0x00004000] |> fun s =>
      { s with status := { Status.reset with sat := true }, result := 0x3FFF }))
      (fun t => t.status.word == 0x00000004 && t.result == 0x3FFF) = true := by decide

/-! ### Witnesses: for each statement with hypotheses, states and operands that meet them, at the boundaries of
each clause -/

/-- DecodedWordIsItsEncoding; both sides of DecodeEncodeRoundTrip. -/
theorem witness_decoded_word : decode 0x00002005 = .ok (.smEnc 32) ∧ (Instr.smEnc 32).wellFormed = true ∧
    (Instr.smEnc 33).wellFormed = false := by decide

/-- LegalWordsAreThoseOfTheMap, both sides, at the ends of each range. -/
theorem witness_legal_words :
    legalWord (0x00000205 : Word).toNat ∧ legalWord (0x00002006 : Word).toNat ∧
    legalWord (0x00000215 : Word).toNat ∧ legalWord (0x00000018 : Word).toNat ∧
    ¬ legalWord (0x00000105 : Word).toNat ∧ ¬ legalWord (0x00002106 : Word).toNat ∧
    ¬ legalWord (0x00000315 : Word).toNat ∧ ¬ legalWord (0x00000118 : Word).toNat ∧
    ¬ legalWord (0x00000019 : Word).toNat ∧ ¬ legalWord (0x00004000 : Word).toNat := by
  refine ⟨?_, ?_, ?_, ?_, ?_, ?_, ?_, ?_, ?_, ?_⟩ <;> unfold legalWord <;> decide

/-- IllegalWordOnlySetsCmdErr. -/
theorem witness_illegal_word : (queued [cmdWord 0x00002105]).pending = .write .bits32 0x000 0x00002105 :: [] ∧
    ¬ legalWord (0x00002105 : Word).toNat := by
  unfold legalWord; decide

/-- StepRunsDecodedCommand. -/
theorem witness_step_runs : (queued [cmdWord 0x00000E05]).pending = .write .bits32 0x000 0x00000E05 :: [] ∧
    decode 0x00000E05 = .ok (.smEnc 14) := by decide

/-- StepPerformsTheAlignedWrite: a narrow register, a read-only one, the last (reserved) word of the space. -/
theorem witness_aligned_write :
    (queued [wr .ppr 16]).pending = .write .bits32 0x080 16 :: [] ∧ (0x080 : Offset).toNat % 4 = 0 ∧
    (queued [wr .id 0]).pending = .write .bits32 0x0FC 0 :: [] ∧ (0x0FC : Offset).toNat % 4 = 0 ∧
    (0xFFC : Offset).toNat % 4 = 0 := by decide

/-- StepTakesOneEventInOrder: a read, and a write before it. -/
theorem witness_step_takes_one :
    (∃ t, step (queued [rd .id]) = .next t ∧ t.replies = [0x0FCA0007]) ∧
    (∃ t, step (queued [wr .argA 5, rd .argA]) = .next t ∧ t.pending = [rd .argA] ∧ t.replies = []) :=
  ⟨⟨_, rfl, by decide⟩, ⟨_, rfl, by decide, by decide⟩⟩

/-- TransientBitsDescribeTheLastCommand, with both reference bits set. -/
theorem witness_transient :
    let s := { queued [cmdWord 0x00000000] with status := { Status.reset with mref := true, eref := true } }
    s.pending = .write .bits32 0x000 0x00000000 :: [] ∧ s.status.mref = true ∧ s.status.eref = true ∧
      decode 0x00000000 ≠ .ok .dec := by decide

/-- OnlyDecWritesLastKind: an event other than reset and DEC; and a DEC that leaves LAST_KIND 0. -/
theorem witness_last_kind :
    (∃ t, step (queued [cmdWord 0x00000001]) = .next t ∧ cmdWord 0x00000001 ≠ .reset ∧
      ¬ writesCmd (cmdWord 0x00000001) 0x00000004) ∧
    nextIs (exec .dec (framed 0 0)) (fun t => t.status.lastKind == 0) = true :=
  ⟨⟨_, rfl, by decide, by unfold writesCmd; decide⟩, by decide⟩

/-- ReferenceBitsOnlySetBySamples: each command, and an event that is neither. -/
theorem witness_reference_bits :
    (∃ t, step (queued [cmdWord 0x00000013]) = .next t ∧ writesCmd (cmdWord 0x00000013) 0x00000013) ∧
    (∃ t, step (queued [cmdWord 0x00000017]) = .next t ∧ writesCmd (cmdWord 0x00000017) 0x00000017) ∧
    (∃ t, step (queued [wr .argA 1]) = .next t ∧ wr .argA 1 ≠ .reset ∧
      ¬ writesCmd (wr .argA 1) 0x00000013 ∧ ¬ writesCmd (wr .argA 1) 0x00000017) :=
  ⟨⟨_, rfl, rfl⟩, ⟨_, rfl, rfl⟩, ⟨_, rfl, by decide, by unfold writesCmd; decide, by unfold writesCmd; decide⟩⟩

/-- OneOutcomePerCommand: each bit is raised by some command. -/
theorem witness_outcomes :
    nextIs (exec .dec (framed 0 0)) (fun t => t.status.kindErr) = true ∧
    nextIs (exec .encElec (electric 0 1024 0 0 0)) (fun t => t.status.sat) = true ∧
    nextIs (exec .encSensor { State.reset with sT2 := 256 }) (fun t => t.status.sat) = true ∧
    nextIs (exec (.smEnc 2) (operands 2 0)) (fun t => t.status.sat) = true ∧
    nextIs (exec .eFold State.reset) (fun t => t.status.foldSkip) = true ∧
    (Instr.smEnc 2).wellFormed = true := by decide

/-- ResetValueOfEveryRegister. -/
theorem witness_reset : (queued [.reset]).pending = .reset :: [] := rfl

/-- ReservedOffsetsAndBits: the first and the last reserved words between mapped ones, the last word of the space;
writes that differ in reserved bits alone. -/
theorem witness_reserved :
    (0x024 : Offset) ∉ mapped ∧ (0x0F8 : Offset) ∉ mapped ∧ (0xFFC : Offset) ∉ mapped ∧
    bits (0xFFFFFFFF : Word).toNat 0 1 = bits (0x00000001 : Word).toNat 0 1 ∧
    bits (0xABCD0010 : Word).toNat 0 16 = bits (0x00000010 : Word).toNat 0 16 := by
  unfold mapped bits; decide

/-- ReadOnlyAndSideEffectFreeReads. -/
theorem witness_read_only : (0x004 : Offset) ∈ readOnly ∧ (0x0FC : Offset) ∈ readOnly ∧
    (∃ t, step (queued [.read .bits32 0x0FC]) = .next t) :=
  ⟨by unfold readOnly; decide, by unfold readOnly; decide, _, rfl⟩

/-- HostWriteReadsBackAndFrames: a plain register, and each half of a pair. -/
theorem witness_host_write :
    (0x008 : Offset) ∈ fullWidth ∧ (0x0D8 : Offset) ∈ fullWidth ∧ (0x0E4 : Offset) ∈ fullWidth ∧
    (queued [.write .bits32 0x0E4 7]).pending = .write .bits32 0x0E4 7 :: [] := by
  unfold fullWidth; decide

/-- PprAndMmprIgnoreZero: a zero and a nonzero low half, and a nonzero old value. -/
theorem witness_ppr :
    (0x00010000 : Word).toNat % 2 ^ 16 = 0 ∧ (0x0001FFFF : Word).toNat % 2 ^ 16 ≠ 0 ∧
    wheel.readOffset 0x080 ≠ 0 ∧ wheel.readOffset 0x084 ≠ 0 := by decide

/-- UndefinedAccessesAreRefused. -/
theorem witness_undefined_accesses :
    (0x002 : Offset).toNat % 4 ≠ 0 ∧ (0xFFF : Offset).toNat % 4 ≠ 0 ∧
    (queued [.read .bits8 0x000]).pending = .read .bits8 0x000 :: [] ∧
    (queued [.write .bits16 0x000 0]).pending = .write .bits16 0x000 0 :: [] ∧
    (queued [.read .bits32 0x002]).pending = .read .bits32 0x002 :: [] ∧
    (queued [.write .bits32 0x002 0]).pending = .write .bits32 0x002 0 :: [] := by decide

/-- EveryDefinedEventCompletes: each kind of defined event, and an empty queue. -/
theorem witness_defined_events :
    (rd .id).defined = true ∧ (wr .ppr 0).defined = true ∧ (cmdWord 0xFFFFFFFF).defined = true ∧
    HostEvent.reset.defined = true ∧ (HostEvent.read .bits32 0xFFC).defined = true ∧
    State.reset.pending = [] := by decide

/-- SafeQueueRunsToItsEnd. -/
theorem witness_safe_queue : (queued (smencProgram (-9000) 14 ++ [.reset])).safeQueue := by
  unfold State.safeQueue; decide

/-- CommandsWriteOnlyTheirRegisters: a next state, and offsets outside the list. -/
theorem witness_command_frame :
    (∃ t, exec (.tripReset 1) State.reset = .next t) ∧
    (0x0B0 : Offset) ∉ writes (.tripReset 1) ∧ (0x0B0 : Offset) ≠ 0x004 :=
  ⟨⟨_, rfl⟩, by decide, by decide⟩

/-- DerivedOutputsChangeOnlyByTheirCommands: each output does change by such a command. -/
theorem witness_derived_outputs :
    nextIs (step { wheel with pending := [cmdWord 0x14], odoBase := 874317 })
      (fun t => t.dist0 != 0 && t.dist1 != 0 && t.dist2 != 0) = true ∧
    nextIs (step { wheel with pending := [cmdWord 0x13], mPulses := 16, status := { Status.reset with mref := true } })
      (fun t => t.speed != 0) = true ∧
    nextIs (step { operands 1 0 with pending := [cmdWord 0x18], eaccC := 36000 }) (fun t => t.norm != 0) = true := by
  decide

/-- DecUnpacksElectric, DecUnpacksMotion, DecUnpacksSensor, DecCountsUnrecognizedKinds (below, between and above
the recognized kinds). -/
theorem witness_dec_kinds :
    frameNat (framed 0x6904D201 0x07001032) % 256 = 1 ∧ frameNat (framed 0x0201F402 0xE0200000) % 256 = 2 ∧
    frameNat (framed 0x03FEFF03 0xFFFFFFF8) % 256 = 3 ∧
    frameNat (framed 0x00000100 0) % 256 = 0 ∧ frameNat (framed 4 0) % 256 = 4 ∧
    frameNat (framed 0xFFFFFFFF 0) % 256 = 255 := by
  unfold frameNat; decide

/-- SmEncEncodesWithSaturation, SmDecDecodesItsLowBits, SignMagnitudeRoundTrip: the widths at both ends, legal and
not; a value that fits, one that does not, and the two zeros. -/
theorem witness_widths :
    (1 : Arg).toNat < 2 ∧ 32 < (33 : Arg).toNat ∧ 2 ≤ (2 : Arg).toNat ∧ (2 : Arg).toNat ≤ 32 ∧
    2 ≤ (32 : Arg).toNat ∧ (32 : Arg).toNat ≤ 32 ∧
    (operands 8191 0).argA.toInt.natAbs ≤ 2 ^ ((14 : Arg).toNat - 1) - 1 ∧
    (operands (-8192) 0).argA.toInt.natAbs > 2 ^ ((14 : Arg).toNat - 1) - 1 ∧
    (operands 0x2000 0).argA.toNat = 2 ^ ((14 : Arg).toNat - 1) ∧ (operands 0 0).argA = 0 := by decide

/-- SignMagnitudeRoundTrip, its injectivity clause and the range of its last clause. -/
theorem witness_patterns :
    (∃ u, exec (.smDec 32) (operands 0xFFFFFFFF 0) = .next u) ∧
    (operands 0xFFFFFFFF 0).argA.toNat < 2 ^ (32 : Arg).toNat ∧
    (operands 0xFFFFFFFF 0).argA.toNat ≠ 2 ^ ((32 : Arg).toNat - 1) ∧
    (-2147483647 : Int).natAbs ≤ 2 ^ ((32 : Arg).toNat - 1) - 1 :=
  ⟨⟨_, rfl⟩, by decide, by decide, by decide⟩

/-- ReservedPayloadBitsAreIgnored: high words that differ in every reserved bit. -/
theorem witness_reserved_payload :
    frameNat (framed 0x0201F402 0x00200000) % 256 = 2 ∧
    (0xE0200000 : Word).toNat % 2 ^ 29 = (framed 0x0201F402 0x00200000).frameHi.toNat % 2 ^ 29 ∧
    frameNat (framed 0x03FEFF03 0x00000000) % 256 = 3 ∧
    (0xFFFFFFF8 : Word).toNat % 2 ^ 3 = (framed 0x03FEFF03 0x00000000).frameHi.toNat % 2 ^ 3 := by
  unfold frameNat; decide

/-- Pulse2mConvertsToMetres, AccMotionAppliesOneSample, DistUpdRecomputesTheDistances,
SaveThenBootReproducesEveryDistance, at the least PPR and MMPR (those of reset); both cases of MREF. -/
theorem witness_wheel : 1 ≤ State.reset.ppr.toNat ∧ 1 ≤ State.reset.mmpr.toNat ∧ 1 ≤ wheel.ppr.toNat ∧
    1 ≤ wheel.mmpr.toNat ∧ wheel.status.mref = false ∧
    { wheel with status := { Status.reset with mref := true } }.status.mref = true := by decide

/-- SafeMulThresholdIsTheLargest, MetresWrapOnlyForLongRevolutions, PrecisionOfTheOrderSwitch: at T and T + 1, with
a short and a long revolution. -/
theorem witness_threshold :
    (2346976 : Word).toNat ≤ (2 ^ 32 - 1) / (1830 : BitVec 16).toNat ∧
    (2 ^ 32 - 1) / (1830 : BitVec 16).toNat < (2346977 : Word).toNat ∧
    safeMulThreshold 1830 < (2346977 : Word).toNat ∧ (2346976 : Word).toNat = safeMulThreshold 1830 ∧
    (2346976 : Word).toNat + 1 < 2 ^ 32 ∧ (1830 : BitVec 16).toNat ≤ 1000 * (16 : BitVec 16).toNat ∧
    ¬ (65535 : BitVec 16).toNat ≤ 1000 * (1 : BitVec 16).toNat := by decide

/-- TripResetStartsOneCounterAgain, its first illegal index. -/
theorem witness_trip_index : 2 < (3 : Arg).toNat := by decide

/-- FoldLeavesEveryDistance: both commands of its last clause. -/
theorem witness_fold : (Instr.distUpd = .distUpd ∨ Instr.distUpd = .accMotion) ∧
    (Instr.accMotion = .distUpd ∨ Instr.accMotion = .accMotion) := by decide

/-- AccElecIntegratesOneSample and EnergySplitBySign: a positive, a negative and a zero current, each with a
reference, voltage, time and an energy that fits. -/
theorem witness_energy :
    (∃ t, exec .accElec { electric 50 840 100 0 0 with status := { Status.reset with eref := true } } = .next t ∧
      (0 : Int) < ((50 : Word).toNat - (0 : BitVec 13).toNat : Int) % 8192 ∧ 0 < (840 : Word).toNat ∧
      (840 : Word).toNat * (100 : Word).toInt.natAbs * 50 < 2 ^ 64 ∧ (100 : Word).toInt > 0) ∧
    (∃ t, exec .accElec { electric 50 840 (-100) 0 0 with status := { Status.reset with eref := true } } = .next t ∧
      (-100 : Word).toInt < 0) ∧
    (∃ t, exec .accElec { electric 50 840 0 0 0 with currInv := true } = .next t ∧ -(0 : Word).toInt = 0) :=
  ⟨⟨_, rfl, by decide, by decide, by decide, by decide⟩, ⟨_, rfl, by decide⟩, ⟨_, rfl, by decide⟩⟩

/-- EFoldGatesFoldsAndNormalizes: at the gate, and one above it. -/
theorem witness_gate :
    { operands 100 0 with minTravelM := 100 }.argA.toNat ≤ { operands 100 0 with minTravelM := 100 }.minTravelM.toNat ∧
    { operands 101 0 with minTravelM := 100 }.minTravelM.toNat < { operands 101 0 with minTravelM := 100 }.argA.toNat := by
  decide

/-- DeltasRecoverShortGapsAndAlias: a gap below the modulus, and one above it. -/
theorem witness_gaps :
    (operands 8190 2).argA.toNat = 8190 % 8192 ∧ (operands 8190 2).argB.toNat = (8190 + 4) % 8192 ∧
    (operands 8190 2).argB.toNat = (8190 + 8196) % 8192 ∧
    (operands 0xFFFFFFFE 3).argA.toNat = 0xFFFFFFFE % 2 ^ 32 ∧
    (operands 0xFFFFFFFE 3).argB.toNat = (0xFFFFFFFE + 5) % 2 ^ 32 := by decide

/-- StepKeepsTheInvariant: a state that has the invariant after a first Motion sample and a DEC of an unrecognized
kind, and that has a next state. -/
theorem witness_invariant :
    let s := { motion 0 0 0 with
      pending := [cmdWord 0x00000017]
      status := { Status.reset with kindErr := true, lastKind := 9, mref := true }, odoRun := 7 }
    s.Inv ∧ ∃ t, step s = .next t :=
  ⟨⟨by decide, by decide, by decide, by decide, by decide, by decide⟩, _, rfl⟩

end Sys2Proof.Tests
end

/-! SUPPORT. Facts the register statements share (10_state.md): what an access does at each kind of offset, what
every command keeps, and the STATUS word as a number. Then the statements of 10_state.md themselves. -/

namespace Sys2Proof.Machine

open Sys2Proof.Claims

/-! ### Register classes and offsets (10_state.md R22, R48, R49) -/

/-- The mapped offsets are those of the registers. -/
theorem mem_mapped {off : Offset} : off ∈ mapped ↔ ∃ r : Reg, r.offset = off := by
  have h : mapped = Reg.all.map Reg.offset := by decide
  simp [h]

theorem regAt_eq_none_of_not_mem_mapped {off : Offset} (h : off ∉ mapped) : regAt off = none :=
  regAt_eq_none.2 fun r hr => h (mem_mapped.2 ⟨r, hr⟩)

/-- The read-only offsets are those of the RO registers. -/
theorem mem_readOnly {off : Offset} : off ∈ readOnly ↔ ∃ r : Reg, r.access = .ro ∧ r.offset = off := by
  have h : readOnly = (Reg.all.filter fun r => r.access = .ro).map Reg.offset := by decide
  simp [h]

theorem readOffset_reserved {off : Offset} (h : regAt off = none) (s : State) : s.readOffset off = 0 := by
  simp [State.readOffset, h]

theorem hostWrite_readOnly {r : Reg} (h : r.access = .ro) (v : Word) (s : State) :
    hostWrite r.offset v s = .next s := by
  have hc : r ≠ .cmd := by rintro rfl; cases h
  rw [hostWrite_offset hc, writeReg_of_not_rw (by simp [h])]

/-- Storing a register leaves every other offset. -/
theorem readOffset_writeReg_other {r : Reg} {off : Offset} (h : off ≠ r.offset) (s : State) (v : Word) :
    (s.writeReg v r).readOffset off = s.readOffset off :=
  readOffset_congr fun r' hr' => readReg_writeReg_other (by rintro rfl; exact h hr'.symm) s v

/-- Taking an event from the queue changes no register (log entry 1). -/
theorem readOffset_setPending (s : State) (rest : List HostEvent) (off : Offset) :
    (s.setPending rest).readOffset off = s.readOffset off :=
  readOffset_congr fun r _ => by cases r <;> rfl

/-- Reset reaches every register, whatever it held (10_state.md R55). -/
theorem readOffset_resetBlock (s : State) (off : Offset) : s.resetBlock.readOffset off = State.reset.readOffset off :=
  readOffset_congr fun r _ => by cases r <;> rfl

/-! ### Bits of a register as a number -/

theorem bits_eq_zero_of_lt {x lo : Nat} (h : x < 2 ^ lo) (w : Nat) : bits x lo w = 0 := by
  simp [bits, Nat.div_eq_of_lt h]

theorem Status.word_toNat (st : Status) : st.word.toNat =
    st.kindErr.toNat + 2 * st.sat.toNat + 4 * st.cmdErr.toNat + 8 * st.mref.toNat + 16 * st.eref.toNat +
      32 * st.foldSkip.toNat + 256 * st.lastKind.toNat := by
  simp only [Status.word, append_toNat, BitVec.toNat_ofBool, BitVec.toNat_ofNat]
  omega

/-- Bits 7:6 and 31:16 of STATUS read 0 (10_state.md R24). -/
theorem Status.word_reservedBits (st : Status) :
    bits st.word.toNat 6 2 = 0 ∧ bits st.word.toNat 16 16 = 0 := by
  have hk := st.lastKind.isLt
  have h0 := st.kindErr.toNat_lt
  have h1 := st.sat.toNat_lt
  have h2 := st.cmdErr.toNat_lt
  have h3 := st.mref.toNat_lt
  have h4 := st.eref.toNat_lt
  have h5 := st.foldSkip.toNat_lt
  simp only [bits, st.word_toNat]
  omega

/-- A register stored in w bits reads below 2^w (log entry 5). -/
theorem bits_setWidth {w : Nat} (x : BitVec w) (n : Nat) : bits (x.setWidth 32).toNat w n = 0 :=
  bits_eq_zero_of_lt (lt_of_le_of_lt (by simpa using Nat.mod_le _ _) x.isLt) n

/-! ### Writes to the narrow registers (10_state.md R29, R36) -/

theorem getLsbD_zero_congr {v v' : Word} (h : bits v.toNat 0 1 = bits v'.toNat 0 1) :
    v.getLsbD 0 = v'.getLsbD 0 := by
  simpa [bits, BitVec.getLsbD, Nat.testBit_zero] using congrArg (fun n => decide (n = 1)) h

theorem warl16_congr {v v' : Word} (h : bits v.toNat 0 16 = bits v'.toNat 0 16) (old : BitVec 16) :
    warl16 old v = warl16 old v' := by
  apply BitVec.eq_of_toNat_eq
  have h' : v.toNat % 2 ^ 16 = v'.toNat % 2 ^ 16 := by simpa [bits] using h
  rw [warl16_toNat, warl16_toNat, h']

/-! ### What every command keeps -/

/-- The registers a command never changes but for the bits it is there to set: MREF is set by ACC_MOTION alone,
EREF by ACC_ELEC alone, neither is cleared, LAST_KIND is DEC's (10_state.md R25 to R27), and no command writes PPR
or MMPR (R52). -/
structure KeptBy (i : Instr) (s t : State) : Prop where
  ppr : t.ppr = s.ppr
  mmpr : t.mmpr = s.mmpr
  mref : t.status.mref = (s.status.mref || decide (i = .accMotion))
  eref : t.status.eref = (s.status.eref || decide (i = .accElec))
  lastKind : i ≠ .dec → t.status.lastKind = s.status.lastKind

theorem unpackFrame_ppr (s : State) (k : Byte) (p : Payload) : (s.unpackFrame k p).ppr = s.ppr := by
  unfold State.unpackFrame; split_ifs <;> rfl

theorem unpackFrame_mmpr (s : State) (k : Byte) (p : Payload) : (s.unpackFrame k p).mmpr = s.mmpr := by
  unfold State.unpackFrame; split_ifs <;> rfl

/-- Unpacking touches STATUS only to flag an unrecognized kind (40_codec.md R120, R124). -/
theorem unpackFrame_status (s : State) (k : Byte) (p : Payload) :
    (s.unpackFrame k p).status = if recognizedKind k then s.status else s.status.flagKindErr := by
  unfold State.unpackFrame
  split_ifs <;> simp_all [recognizedKind, kindElectric, kindMotion, kindSensor]

/-- A counter's reset leaves STATUS and the configuration (41_accumulator.md R156). -/
theorem resetTrip_kept (s : State) (k : Nat) :
    (s.resetTrip k).status = s.status ∧ (s.resetTrip k).ppr = s.ppr ∧ (s.resetTrip k).mmpr = s.mmpr := by
  unfold State.resetTrip; split <;> exact ⟨rfl, rfl, rfl⟩

/-- Every command keeps them, the terms that are no command (log entry 3) included. -/
theorem exec_keeps {i : Instr} {s t : State} (h : exec i s = .next t) : KeptBy i s t := by
  cases i <;> simp only [exec, execSmEnc, execSmDec, execTripReset, execEFold] at h
  case dec =>
    cases h
    constructor <;> simp [unpackFrame_ppr, unpackFrame_mmpr, unpackFrame_status] <;> split <;> simp
  case smEnc | smDec | eFold =>
    split at h <;> cases h <;> constructor <;> simp
  case tripReset =>
    split at h <;> cases h <;> constructor <;> simp [resetTrip_kept]
  all_goals
    cases h
    constructor <;> simp

/-- A command starts by clearing the transient bits, so clearing them before it makes no difference
(10_state.md R25). -/
theorem exec_beginCommand (i : Instr) (s : State) : exec i s.beginCommand = exec i s := by
  cases i <;> rfl

theorem runCommand_beginCommand (w : Word) (s : State) : runCommand w s.beginCommand = runCommand w s := by
  unfold runCommand
  split
  · exact exec_beginCommand _ s
  · rfl

/-- The step of a CMD write is settled by the state that the clearing of the transient bits leaves. -/
theorem step_cmd_eq {s : State} {w : Word} {rest : List HostEvent}
    (hp : s.pending = .write .bits32 0x000 w :: rest) :
    step s = runCommand w (s.setPending rest).beginCommand := by
  rw [step_cmd hp, runCommand_beginCommand]

/-- The word of a legal command is its encoding: no two words name one command (30_encoding.md R80, R82). -/
theorem encode_of_decode {w : Word} {i : Instr} (h : decode w = .ok i) : encode i = w := by
  obtain ⟨hz, hop, harg, -⟩ := (decode_eq_ok_iff w i).1 h
  rw [encode, op_of_opcodeMap hop, harg, formatC_fields hz]

/-- What one step can do: idle, or perform the next event on the state whose queue has moved on. -/
theorem step_next {s t : State} (h : step s = .next t) :
    (s.pending = [] ∧ t = s) ∨ ∃ e rest, s.pending = e :: rest ∧ hostEvent e (s.setPending rest) = .next t := by
  cases hp : s.pending with
  | nil => rw [step_nil hp] at h; cases h; exact .inl ⟨rfl, rfl⟩
  | cons e rest => exact .inr ⟨e, rest, rfl, step_cons hp ▸ h⟩

/-! ### LAST_KIND (10_state.md R26) -/

/-- DEC leaves frame byte 0 in LAST_KIND and flags it where it is no recognized kind (40_codec.md R120, R124). -/
theorem execDec_status {s t : State} (h : exec .dec s = .next t) :
    t.status.lastKind = frameKind s.frame ∧
      t.status.kindErr = !recognizedKind (frameKind s.frame) := by
  cases h
  rw [unpackFrame_status]
  cases recognizedKind (frameKind s.frame) <;> simp

/-- Frame byte 0 is bits 7:0 of FRAME_LO (10_state.md R30; 30_encoding.md R87). -/
theorem frameKind_frame_toNat (s : State) : (frameKind s.frame).toNat = s.frameLo.toNat % 256 := by
  rw [frameKind_toNat, frame_toNat]
  omega

/-- An event that is neither reset nor DEC's write leaves LAST_KIND. -/
theorem hostEvent_lastKind {e : HostEvent} {s t : State} (h : hostEvent e s = .next t) (hr : e ≠ .reset)
    (hdec : ¬ writesCmd e 0x00000004) : t.status.lastKind = s.status.lastKind := by
  rcases hostEvent_next h with ⟨off, -, -, rfl⟩ | ⟨w, i, rfl, hd, hx⟩ | ⟨w, x, -, -, rfl⟩ | ⟨r, v, -, -, rfl⟩ |
    ⟨off, v, -, -, rfl⟩ | ⟨rfl, -⟩
  · rfl
  · refine (exec_keeps hx).lastKind ?_
    rintro rfl
    exact hdec (by rw [← encode_of_decode hd]; rfl)
  · rfl
  · simp
  · rfl
  · exact absurd rfl hr

/-! ### PPR and MMPR (10_state.md R36) -/

/-- The two write-any-read-legal registers. -/
def Reg.warl (r : Reg) : Prop := r = .ppr ∨ r = .mmpr

theorem warl_of_offset {off : Offset} (h : off = 0x080 ∨ off = 0x084) : ∃ r : Reg, r.warl ∧ off = r.offset := by
  rcases h with rfl | rfl
  · exact ⟨.ppr, .inl rfl, rfl⟩
  · exact ⟨.mmpr, .inr rfl, rfl⟩

theorem Reg.warl.readReg_lt {r : Reg} (h : r.warl) (s : State) : (s.readReg r).toNat < 2 ^ 16 := by
  rcases h with rfl | rfl <;> simp [State.readReg] <;> omega

/-- A nonzero low half is stored, a zero one is ignored. -/
theorem Reg.warl.readReg_writeReg {r : Reg} (h : r.warl) (s : State) (v : Word) :
    ((s.writeReg v r).readReg r).toNat =
      if v.toNat % 2 ^ 16 = 0 then (s.readReg r).toNat else v.toNat % 2 ^ 16 := by
  have read (x : BitVec 16) : (x.setWidth 32).toNat = x.toNat := by simp; omega
  rcases h with rfl | rfl <;> simp only [State.writeReg, State.readReg, read, warl16_toNat]

theorem Reg.warl.readReg_congr {r : Reg} (h : r.warl) {s t : State} (hp : t.ppr = s.ppr) (hm : t.mmpr = s.mmpr) :
    t.readReg r = s.readReg r := by
  rcases h with rfl | rfl <;> simp only [State.readReg, hp, hm]

theorem Reg.warl.ne_zero_congr {r : Reg} (h : r.warl) {s t : State} (hs : s.readReg r ≠ 0)
    (hp : t.ppr = s.ppr) (hm : t.mmpr = s.mmpr) : t.readReg r ≠ 0 := by
  rwa [h.readReg_congr hp hm]

theorem Reg.warl.readReg_reset {r : Reg} (h : r.warl) : State.reset.readReg r = 1 := by
  rcases h with rfl | rfl <;> rfl

/-- Storing any register keeps a nonzero PPR or MMPR nonzero. -/
theorem Reg.warl.writeReg_ne_zero {r : Reg} (h : r.warl) {s : State} (hs : s.readReg r ≠ 0) (v : Word) (r' : Reg) :
    (s.writeReg v r').readReg r ≠ 0 := by
  by_cases hr : r = r'
  · subst hr
    have hw := h.readReg_writeReg s v
    rw [← BitVec.toNat_ne_iff_ne] at hs ⊢
    split at hw <;> simp_all
  · rwa [readReg_writeReg_other hr]

/-- No step takes a nonzero PPR or MMPR to zero. -/
theorem Reg.warl.step_ne_zero {r : Reg} (h : r.warl) {s t : State} (ht : step s = .next t) (hs : s.readReg r ≠ 0) :
    t.readReg r ≠ 0 := by
  rcases step_next ht with ⟨-, rfl⟩ | ⟨e, rest, -, he⟩
  · exact hs
  have hs' : (s.setPending rest).readReg r ≠ 0 := h.ne_zero_congr hs rfl rfl
  rcases hostEvent_next he with ⟨off, -, -, rfl⟩ | ⟨w, i, -, -, hx⟩ | ⟨w, x, -, -, rfl⟩ | ⟨r', v, -, -, rfl⟩ |
    ⟨off, v, -, -, rfl⟩ | ⟨-, rfl⟩
  · exact h.ne_zero_congr hs' rfl rfl
  · exact h.ne_zero_congr hs' (exec_keeps hx).ppr (exec_keeps hx).mmpr
  · exact h.ne_zero_congr hs' rfl rfl
  · exact h.writeReg_ne_zero hs' v r'
  · exact hs'
  · exact h.ne_zero_congr (s := State.reset) (by rw [h.readReg_reset]; decide) rfl rfl

/-! ### The statements of 10_state.md -/

/-- Settles O10: the command runs alike from every setting of the transient bits, since it clears them first; what
it keeps is `exec_keeps`. -/
theorem transientBitsDescribeTheLastCommand : Obligations.TransientBitsDescribeTheLastCommand := by
  unfold Obligations.TransientBitsDescribeTheLastCommand
  intro s w rest b0 b1 b2 b5 hp
  have hflip : step { s with status :=
      { s.status with kindErr := b0, sat := b1, cmdErr := b2, foldSkip := b5 } } = step s := by
    rw [step_cmd_eq hp]
    exact step_cmd_eq hp
  rw [hflip, step_cmd hp]
  rcases runCommand_cases w (s.setPending rest) with ⟨i, hd, hrun⟩ | ⟨x, hd, hrun⟩ <;> rw [hrun]
  · obtain ⟨t, ht⟩ := exec_next i (s.setPending rest)
    have hk := exec_keeps ht
    refine ⟨t, ht, ht, ?_, ?_, fun hw => hk.lastKind ?_⟩
    · simp +contextual [hk.mref]
    · simp +contextual [hk.eref]
    · rintro rfl; exact hw hd
  · exact ⟨_, rfl, rfl, id, id, fun _ => rfl⟩

/-- Settles O11, by the cases of one event and by what DEC does to STATUS. -/
theorem onlyDecWritesLastKind : Obligations.OnlyDecWritesLastKind := by
  unfold Obligations.OnlyDecWritesLastKind
  refine ⟨fun s t e rest hp ht hr hdec => ?_, fun s => ?_, rfl⟩
  · rw [step_cons hp] at ht
    simpa using hostEvent_lastKind ht hr hdec
  · obtain ⟨t, ht⟩ := exec_next .dec s
    obtain ⟨hkind, herr⟩ := execDec_status ht
    refine ⟨t, ht, by rw [hkind, frameKind_frame_toNat], fun h0 => ?_⟩
    rw [herr, ← hkind, h0]
    rfl

/-- Settles O16: register by register, a reserved offset being none of PPR, MMPR and ID. -/
theorem resetValueOfEveryRegister : Obligations.ResetValueOfEveryRegister := by
  unfold Obligations.ResetValueOfEveryRegister
  refine ⟨fun off => ?_, fun s rest hp => ?_⟩
  · cases hr : regAt off with
    | none =>
      have hne := regAt_eq_none.1 hr
      rw [readOffset_reserved hr, if_neg, if_neg]
      · exact fun h => hne .id h.symm
      · exact fun h => h.elim (fun h => hne .ppr h.symm) fun h => hne .mmpr h.symm
    | some r =>
      obtain rfl := regAt_eq_some.1 hr
      rw [readOffset_offset]
      cases r <;> rfl
  · exact ⟨(s.setPending rest).resetBlock, step_cons hp, readOffset_resetBlock _⟩

/-- Settles O17: unmapped offsets by the register map, read bits by the registers' widths, writes by access right. -/
theorem reservedOffsetsAndBits : Obligations.ReservedOffsetsAndBits := by
  unfold Obligations.ReservedOffsetsAndBits
  refine ⟨fun s off v hoff => ?_, fun s => ?_, fun s v v' => ?_⟩
  · have hnone := regAt_eq_none_of_not_mem_mapped hoff
    exact ⟨readOffset_reserved hnone s, hostWrite_reserved hnone v s⟩
  · obtain ⟨h6, h16⟩ := s.status.word_reservedBits
    exact ⟨h6, h16, bits_setWidth _ _, bits_setWidth _ _, bits_setWidth _ _, bits_setWidth _ _, bits_setWidth _ _⟩
  · have hcfg (w : Word) : hostWrite 0x00C w s = .next { s with currInv := w.getLsbD 0 } := rfl
    have hppr (w : Word) : hostWrite 0x080 w s = .next { s with ppr := warl16 s.ppr w } := rfl
    have hmmpr (w : Word) : hostWrite 0x084 w s = .next { s with mmpr := warl16 s.mmpr w } := rfl
    refine ⟨hostWrite_readOnly (r := .status) rfl v s, hostWrite_readOnly (r := .mTsRef) rfl v s,
      hostWrite_readOnly (r := .eTsRef) rfl v s, fun h => ?_, fun h => ⟨?_, ?_⟩⟩
    · rw [hcfg, hcfg, getLsbD_zero_congr h]
    · rw [hppr, hppr, warl16_congr h]
    · rw [hmmpr, hmmpr, warl16_congr h]

/-- Settles O18: writes by access right, reads by the cases of one event. -/
theorem readOnlyAndSideEffectFreeReads : Obligations.ReadOnlyAndSideEffectFreeReads := by
  unfold Obligations.ReadOnlyAndSideEffectFreeReads
  refine ⟨fun s off v hoff => ?_, fun s => readOffset_offset s .cmd, fun s t width off rest hp ht => ?_⟩
  · obtain ⟨r, hr, rfl⟩ := mem_readOnly.1 hoff
    exact hostWrite_readOnly hr v s
  · rw [step_cons hp] at ht
    obtain ⟨off', he, -, rfl⟩ : ∃ off', HostEvent.read width off = .read .bits32 off' ∧ off'.toNat % 4 = 0 ∧
        t = (s.setPending rest).addReply ((s.setPending rest).readOffset off') := by
      simpa using hostEvent_next ht
    cases he
    rw [readOffset_setPending]
    rfl

/-- Settles O20: the write by the register's write-any-read-legal rule, nonzero for ever by the cases of one step. -/
theorem pprAndMmprIgnoreZero : Obligations.PprAndMmprIgnoreZero := by
  unfold Obligations.PprAndMmprIgnoreZero
  refine ⟨fun s off v hoff => ?_, fun off hoff => ?_⟩ <;> obtain ⟨r, hr, rfl⟩ := warl_of_offset hoff
  · have hc : r ≠ .cmd := by rcases hr with rfl | rfl <;> decide
    have hread := hr.readReg_writeReg s v
    refine ⟨s.writeReg v r, hostWrite_offset hc v s, ?_, fun h => ?_, fun h => ?_,
      fun off' h => readOffset_writeReg_other h s v, writeReg_pending s v r, writeReg_replies s v r⟩ <;>
      simp only [readOffset_offset]
    · exact hr.readReg_lt _
    · rw [hread, if_neg h]
    · exact BitVec.eq_of_toNat_eq (by rw [hread, if_pos h])
  · simp only [readOffset_offset]
    exact ⟨hr.readReg_reset, fun s t => hr.step_ne_zero⟩

/-- Settles O15: ID is a constant with access right RO. -/
theorem idIsConstant : Obligations.IdIsConstant := by
  unfold Obligations.IdIsConstant
  exact fun s => ⟨readOffset_offset s .id, fun v => hostWrite_readOnly (r := .id) rfl v s⟩

end Sys2Proof.Machine

/-! SUPPORT. Facts the encoding statements share (30_encoding.md): the legal words by their fields, and DEC as a
function of the frame bits it reads. Then the statements of 30_encoding.md themselves. -/

namespace Sys2Proof.Machine

open Sys2Proof.Claims

/-! ### Legal command words (30_encoding.md R80 to R83) -/

/-- What the decoder accepts, by the fields of the command: OP and ARG together name it (30_encoding.md R82). -/
theorem decode_eq_ok_iff_fields {w : Word} {i : Instr} :
    decode w = .ok i ↔ zField w = 0 ∧ i.op = opField w ∧ i.arg = argField w ∧ i.wellFormed = true := by
  rw [decode_eq_ok_iff]
  refine and_congr_right fun _ => and_congr_left fun ⟨harg, _⟩ => ⟨op_of_opcodeMap, fun hop => ?_⟩
  rw [← hop, ← harg, opcodeMap_op_arg]

/-- The 13 opcodes without an argument are those of the commands that carry none (30_encoding.md R82, R97). -/
theorem plainMnemonics_ops : plainMnemonics.map (fun p => p.2.op.toNat) =
    [0x00, 0x01, 0x02, 0x03, 0x04, 0x10, 0x11, 0x12, 0x13, 0x14, 0x16, 0x17, 0x18] := rfl

theorem plainMnemonics_wellFormed : ∀ p ∈ plainMnemonics, p.2.arg = 0 ∧ p.2.wellFormed = true := by
  simp [plainMnemonics, Instr.arg, Instr.wellFormed]

/-- A word is legal when Z is 0 and OP and ARG are those of a well-formed command (30_encoding.md R83). -/
theorem legalWord_iff_fields (w : Word) :
    legalWord w.toNat ↔ zField w = 0 ∧ ∃ i : Instr, i.op = opField w ∧ i.arg = argField w ∧ i.wellFormed = true := by
  have hz : w.toNat / 2 ^ 14 = 0 ↔ zField w = 0 := by rw [← zField_toNat, ← BitVec.toNat_inj]; rfl
  rw [legalWord, hz, bits, ← opField_toNat, ← argField_toNat]
  refine and_congr_right fun _ => ?_
  generalize opField w = op
  generalize argField w = arg
  constructor
  · rintro (⟨hop, harg⟩ | ⟨hop, hwidth⟩ | ⟨hop, htrip⟩)
    · rw [← plainMnemonics_ops, List.mem_map] at hop
      obtain ⟨⟨m, i⟩, hi, hop⟩ := hop
      obtain ⟨ha, hwf⟩ := plainMnemonics_wellFormed _ hi
      exact ⟨i, BitVec.eq_of_toNat_eq hop, ha.trans (BitVec.eq_of_toNat_eq harg).symm, hwf⟩
    · rw [List.mem_pair] at hop
      rcases hop with hop | hop
      · exact ⟨.smEnc arg, BitVec.eq_of_toNat_eq hop.symm, rfl, decide_eq_true hwidth⟩
      · exact ⟨.smDec arg, BitVec.eq_of_toNat_eq hop.symm, rfl, decide_eq_true hwidth⟩
    · exact ⟨.tripReset arg, BitVec.eq_of_toNat_eq hop.symm, rfl, decide_eq_true htrip⟩
  · rintro ⟨i, rfl, rfl, hwf⟩
    cases i
    case smEnc | smDec => exact .inr (.inl ⟨by simp [Instr.op], of_decide_eq_true hwf⟩)
    case tripReset => exact .inr (.inr ⟨rfl, of_decide_eq_true hwf⟩)
    all_goals exact .inl ⟨by decide, rfl⟩

theorem exists_decode_iff_legalWord (w : Word) : (∃ i, decode w = .ok i) ↔ legalWord w.toNat := by
  simp only [decode_eq_ok_iff_fields, legalWord_iff_fields, exists_and_left]

/-! ### DEC by the kind of its frame (40_codec.md R120) -/

theorem frameKind_eq_of_frameNat {s : State} {k : Byte} (h : frameNat s % 256 = k.toNat) : frameKind s.frame = k :=
  BitVec.eq_of_toNat_eq (by rw [frameKind_toNat, frame_toNat]; exact h)

theorem exec_dec {s : State} {k : Byte} (h : frameKind s.frame = k) :
    exec .dec s = .next
      ((s.setStatus (s.status.clearTransient.setLastKind k)).unpackFrame k (framePayload s.frame)) := by
  subst h; rfl

@[simp] theorem unpackFrame_electric (s : State) (p : Payload) :
    s.unpackFrame kindElectric p = s.unpackElectric p := rfl

@[simp] theorem unpackFrame_motion (s : State) (p : Payload) :
    s.unpackFrame kindMotion p = s.unpackMotion p := rfl

@[simp] theorem unpackFrame_sensor (s : State) (p : Payload) :
    s.unpackFrame kindSensor p = s.unpackSensor p := rfl

/-- Unpacking neither reads nor writes FRAME_HI itself (40_codec.md R120 to R124). -/
theorem unpackFrame_setFrameHi (s : State) (hi : Word) (k : Byte) (p : Payload) :
    { s with frameHi := hi }.unpackFrame k p = { s.unpackFrame k p with frameHi := hi } := by
  unfold State.unpackFrame; split_ifs <;> rfl

/-! ### The frame bits a kind reads (30_encoding.md R91, R92, R95) -/

/-- Frames that agree below bit n agree on every payload field below it. -/
theorem ext_framePayload_congr {fr fr' : DWord} {n lo w : Nat} (h : fr.toNat ≡ fr'.toNat [MOD 2 ^ n])
    (hn : 8 + lo + w ≤ n) : ext (framePayload fr) lo w = ext (framePayload fr') lo w := by
  have hmod : fr.toNat % 2 ^ (8 + lo + w) = fr'.toNat % 2 ^ (8 + lo + w) := h.of_dvd (pow_dvd_pow 2 hn)
  apply BitVec.eq_of_toNat_eq
  rw [ext_framePayload_toNat, ext_framePayload_toNat, ← Nat.mod_mul_right_div_self, ← Nat.mod_mul_right_div_self,
    ← Nat.pow_add, hmod]

/-- A Motion frame's fields end below frame bit 61. -/
theorem unpackMotion_congr {fr fr' : DWord} (h : fr.toNat ≡ fr'.toNat [MOD 2 ^ 61]) (s : State) :
    s.unpackMotion (framePayload fr) = s.unpackMotion (framePayload fr') := by
  have field {lo w : Nat} (hn : 8 + lo + w ≤ 61) := ext_framePayload_congr h hn
  simp only [State.unpackMotion]
  rw [field (by decide), field (by decide), field (by decide)]

/-- A SensorBlock frame's fields end below frame bit 35. -/
theorem unpackSensor_congr {fr fr' : DWord} (h : fr.toNat ≡ fr'.toNat [MOD 2 ^ 35]) (s : State) :
    s.unpackSensor (framePayload fr) = s.unpackSensor (framePayload fr') := by
  have field {lo w : Nat} (hn : 8 + lo + w ≤ 35) := ext_framePayload_congr h hn
  simp only [State.unpackSensor]
  rw [field (by decide), field (by decide), field (by decide)]

/-- FRAME_HI values that agree below bit m give frames that agree below bit 32 + m (10_state.md R30). -/
theorem frame_setFrameHi_modEq (s : State) {hi : Word} {m : Nat} (h : hi.toNat % 2 ^ m = s.frameHi.toNat % 2 ^ m) :
    { s with frameHi := hi }.frame.toNat ≡ s.frame.toNat [MOD 2 ^ (32 + m)] := by
  rw [frame_toNat, frame_toNat, Nat.pow_add]
  exact (Nat.ModEq.mul_left' _ h).add_left _

/-- Where a kind's unpacking does not see the change of FRAME_HI, neither does DEC, STATUS included. -/
theorem exec_dec_setFrameHi {s : State} {k : Byte} {hi : Word} (hk : frameNat s % 256 = k.toNat)
    (h : ∀ u : State, u.unpackFrame k (framePayload { s with frameHi := hi }.frame) =
      u.unpackFrame k (framePayload s.frame)) :
    ∃ t, exec .dec s = .next t ∧ exec .dec { s with frameHi := hi } = .next { t with frameHi := hi } := by
  have hk' : frameNat { s with frameHi := hi } % 256 = k.toNat := by
    rw [← hk]; simp only [frameNat]; omega
  refine ⟨_, exec_dec (frameKind_eq_of_frameNat hk), ?_⟩
  rw [exec_dec (frameKind_eq_of_frameNat hk'), h, ← unpackFrame_setFrameHi]
  rfl

/-! ### The frame an encoder leaves (30_encoding.md R87) -/

theorem frameNat_eq_of_frame {s : State} {p : Payload} {k : Byte} (h : s.frame = frameOf p k) :
    frameNat s = k.toNat + 2 ^ 8 * p.toNat := by
  rw [← frameOf_toNat, ← h, frame_toNat, frameNat]

theorem packMotion_lt (ts : BitVec 13) (pulses : BitVec 32) (seq : BitVec 8) :
    (packMotion ts pulses seq).toNat < 2 ^ 53 := by
  rw [packMotion_toNat]; omega

theorem packSensor_lt (t0 t1 t2 : BitVec 9) : (packSensor t0 t1 t2).toNat < 2 ^ 27 := by
  rw [packSensor_toNat]; omega

/-- A payload whose bits from n on are 0 makes a frame whose bits from 8 + n on are 0. -/
theorem frameNat_lt_of_frame {s : State} {p : Payload} {k : Byte} {n : Nat} (h : s.frame = frameOf p k)
    (hp : p.toNat < 2 ^ n) : frameNat s < 2 ^ (8 + n) := by
  have hk := k.isLt
  rw [frameNat_eq_of_frame h, Nat.pow_add]
  omega

/-! ### The statements of 30_encoding.md -/

/-- Settles O4, by the fields of the word. -/
theorem legalWordsAreThoseOfTheMap : Obligations.LegalWordsAreThoseOfTheMap := by
  unfold Obligations.LegalWordsAreThoseOfTheMap
  exact exists_decode_iff_legalWord

/-- Settles O5: a word that is not legal does not decode, so the CMD write is that of an illegal command. -/
theorem illegalWordOnlySetsCmdErr : Obligations.IllegalWordOnlySetsCmdErr := by
  unfold Obligations.IllegalWordOnlySetsCmdErr
  intro s w rest hp hw
  rw [step_cmd hp]
  rcases runCommand_cases w (s.setPending rest) with ⟨i, hd, -⟩ | ⟨x, -, hrun⟩
  · exact absurd ((exists_decode_iff_legalWord w).1 ⟨i, hd⟩) hw
  · rw [hrun]; rfl

/-- Settles O40: DEC reads a frame through its kind's fields, and the encoders' payloads end below the reserved
bits. -/
theorem reservedPayloadBitsAreIgnored : Obligations.ReservedPayloadBitsAreIgnored := by
  unfold Obligations.ReservedPayloadBitsAreIgnored
  refine ⟨fun s hi hk h => ?_, fun s hi hk h => ?_, fun s => ?_, fun s => ?_, fun s hk => ?_⟩
  · exact exec_dec_setFrameHi (k := kindMotion) hk (unpackMotion_congr (frame_setFrameHi_modEq s h))
  · exact exec_dec_setFrameHi (k := kindSensor) hk (unpackSensor_congr (frame_setFrameHi_modEq s h))
  · exact ⟨_, rfl, frameNat_lt_of_frame (frame_setFrame s.beginCommand _) (packMotion_lt _ _ _)⟩
  · exact ⟨_, rfl, frameNat_lt_of_frame (frame_setFrame s _) (packSensor_lt _ _ _)⟩
  · refine ⟨_, exec_dec (frameKind_eq_of_frameNat (k := kindElectric) hk), ?_⟩
    have hfaults : (ext (framePayload s.frame) 37 11).toNat = bits (frameNat s) 45 11 := by
      rw [ext_framePayload_toNat, frame_toNat]; rfl
    rw [unpackFrame_electric, ← hfaults]
    exact BitVec.toNat_setWidth_of_le (by decide)

end Sys2Proof.Machine

/-! SUPPORT. Facts the codec statements share (40_codec.md): the word of a command as a number, the spec's field values
and the model's, and what each command of the family answers. Then the statements of 40_codec.md themselves. -/

namespace Sys2Proof.Machine

open Sys2Proof.Claims

/-! ### Command words (30_encoding.md R80) -/

/-- Format C as a sum: its two fields do not overlap. -/
theorem formatC_eq_add (op : BitVec 8) (arg : Arg) : formatC op arg = op.setWidth 32 + 256 * arg.setWidth 32 := by
  apply BitVec.eq_of_toNat_eq
  have hop := opField_toNat (formatC op arg)
  have harg := argField_toNat (formatC op arg)
  have hz := zField_toNat (formatC op arg)
  rw [opField_formatC] at hop
  rw [argField_formatC] at harg
  rw [zField_formatC] at hz
  bv_omega

/-- The encoding of a term that is no command is illegal (30_encoding.md R83, R88). -/
theorem wellFormed_of_decode_encode {i j : Instr} (h : decode (encode i) = .ok j) : i.wellFormed = true := by
  obtain ⟨-, hmap, -, hwf⟩ := (decode_eq_ok_iff _ _).1 h
  obtain ⟨-, -, -, hi⟩ := Laws.EncodedFields.of_formatC i
  cases hi.symm.trans hmap
  exact hwf

/-! ### Field values in the spec's numbers (40_codec.md R110, R111, R114) -/

theorem smencPattern_eq_smCode (v : Int) (n : Nat) : smencPattern v n = smCode v n := by
  simp only [smencPattern, smCode, maxMagnitude]
  split <;> omega

theorem smencSat_eq_smTooBig (v : Int) (n : Nat) : smencSat v n = smTooBig v n := by
  have h := maxMagnitude_add_one n
  exact decide_eq_decide.2 (by omega)

theorem smdec_eq_smInt {b n : Nat} (h : 1 ≤ n) (hb : b < 2 ^ n) : smdec b n = smInt b n := smdec_eq h hb

theorem smField_toNat_eq_smCode {n : Nat} (h : 1 ≤ n) (v : Word) : (smField n v).toNat = smCode v.toInt n := by
  rw [smField_toNat h, smencPattern_eq_smCode]; rfl

theorem smValue_toInt {n : Nat} (h : 1 ≤ n) (h' : n ≤ 32) (b : BitVec n) : (smValue b).toInt = smInt b.toNat n := by
  rw [smValue, u32_smdec_toInt _ h', smdec_eq_smInt h b.isLt]

/-- The voltage field is the voltage up to 1023 (40_codec.md R114). -/
theorem voltField_toNat (v : Word) : (voltField v).toNat = min v.toNat 1023 := by
  rw [voltField, BitVec.toNat_ofNat]; omega

/-! ### Round trips of the code (40_codec.md R112) -/

/-- A value that fits comes back from its code, without saturation. -/
theorem smdec_smencPattern_of_fits {v : Int} {n : Nat} (h : 1 ≤ n) (hv : v.natAbs ≤ maxMagnitude n) :
    smdec (smencPattern v n) n = v ∧ smencSat v n = false :=
  ⟨by rw [smdec_smencPattern v h]; omega, decide_eq_false (Nat.not_lt.2 hv)⟩

/-- A value that does not fit comes back as the largest magnitude with its sign, with saturation. -/
theorem smdec_smencPattern_of_tooBig {v : Int} {n : Nat} (h : 1 ≤ n) (hv : maxMagnitude n < v.natAbs) :
    smdec (smencPattern v n) n = v.sign * maxMagnitude n ∧ smencSat v n = true := by
  refine ⟨?_, decide_eq_true hv⟩
  rw [smdec_smencPattern v h]
  rcases lt_or_ge v 0 with hneg | hpos
  · rw [Int.sign_eq_neg_one_of_neg hneg]; omega
  · rw [Int.sign_eq_one_of_pos (by omega)]; omega

/-- The encoder never makes -0 (40_codec.md R110): below 0 the magnitude is at least 1. -/
theorem smencPattern_ne_negZero (v : Int) {n : Nat} (h : 2 ≤ n) : smencPattern v n ≠ 2 ^ (n - 1) := by
  have h1 := maxMagnitude_add_one n
  have h2 : 2 ^ 1 ≤ 2 ^ (n - 1) := Nat.pow_le_pow_right (by decide) (by omega)
  simp only [smencPattern]
  split <;> omega

/-- Both zeros decode to 0. -/
theorem smdec_zeros {b n : Nat} (h : 1 ≤ n) (hb : b = 2 ^ (n - 1) ∨ b = 0) : smdec b n = 0 := by
  have hlt : 2 ^ (n - 1) < 2 ^ n := Nat.pow_lt_pow_right (by decide) (by omega)
  have hpos := Nat.two_pow_pos (n - 1)
  rw [smdec_eq h (by omega)]
  split <;> omega

/-- No two patterns other than -0 decode alike. -/
theorem smdec_injective {b b' n : Nat} (h : 1 ≤ n) (hb : b < 2 ^ n) (hb' : b' < 2 ^ n) (hz : b ≠ 2 ^ (n - 1))
    (hz' : b' ≠ 2 ^ (n - 1)) (heq : smdec b n = smdec b' n) : b = b' := by
  rw [smdec_eq h hb, smdec_eq h hb'] at heq
  split at heq <;> split at heq <;> omega

/-! ### The sign-magnitude commands (40_codec.md R125, R126) -/

theorem widthLegal_iff (n : Arg) : widthLegal n = true ↔ 2 ≤ n.toNat ∧ n.toNat ≤ 32 := decide_eq_true_iff

/-- SM_ENC at a legal width, as one state equation. -/
theorem exec_smEnc {n : Arg} (h : widthLegal n = true) (s : State) :
    exec (.smEnc n) s = .next { s with
      result := BitVec.ofNat 32 (smencPattern s.argA.toInt n.toNat)
      status := { quiet s.status with sat := smencSat s.argA.toInt n.toNat } } := by
  simp only [exec, execSmEnc, if_pos h]; rfl

/-- SM_DEC at a legal width, as one state equation. -/
theorem exec_smDec {n : Arg} (h : widthLegal n = true) (s : State) :
    exec (.smDec n) s = .next { s with
      result := u32 (smdec (s.argA.toNat % 2 ^ n.toNat) n.toNat)
      status := quiet s.status } := by
  simp only [exec, execSmDec, if_pos h]; rfl

/-- RESULT of SM_ENC holds the whole pattern. -/
theorem ofNat_smencPattern_toNat (v : Int) {n : Nat} (h : 1 ≤ n) (h' : n ≤ 32) :
    (BitVec.ofNat 32 (smencPattern v n)).toNat = smencPattern v n := by
  have hlt := smencPattern_lt v h
  have hle : 2 ^ n ≤ 2 ^ 32 := Nat.pow_le_pow_right (by decide) h'
  rw [BitVec.toNat_ofNat, Nat.mod_eq_of_lt (by omega)]

/-- SM_DEC of an N-bit pattern decodes the whole of it. -/
theorem exec_smDec_toInt {n : Arg} {s u : State} (h : widthLegal n = true) (hb : s.argA.toNat < 2 ^ n.toNat)
    (hu : exec (.smDec n) s = .next u) : u.result.toInt = smdec s.argA.toNat n.toNat := by
  cases (exec_smDec h s).symm.trans hu
  rw [u32_smdec_toInt _ ((widthLegal_iff n).1 h).2, Nat.mod_eq_of_lt hb]

/-- SM_DEC of the pattern of v decodes that pattern. -/
theorem exec_smDec_toInt_of_pattern {n : Arg} {s u : State} {v : Int} (h : widthLegal n = true)
    (hs : s.argA = BitVec.ofNat 32 (smencPattern v n.toNat)) (hu : exec (.smDec n) s = .next u) :
    u.result.toInt = smdec (smencPattern v n.toNat) n.toNat := by
  obtain ⟨h2, h32⟩ := (widthLegal_iff n).1 h
  have hpat : s.argA.toNat = smencPattern v n.toNat := by rw [hs, ofNat_smencPattern_toNat v (by omega) h32]
  rw [exec_smDec_toInt h (hpat ▸ smencPattern_lt v (by omega)) hu, hpat]

/-- SM_DEC of the RESULT that SM_ENC leaves is the round trip of ARG_A (40_codec.md R112). -/
theorem exec_smEnc_smDec {n : Arg} {s t u : State} (h : widthLegal n = true) (ht : exec (.smEnc n) s = .next t)
    (hu : exec (.smDec n) { t with argA := t.result } = .next u) :
    u.result.toInt = smdec (smencPattern s.argA.toInt n.toNat) n.toNat ∧
      t.status.sat = smencSat s.argA.toInt n.toNat := by
  cases (exec_smEnc h s).symm.trans ht
  exact ⟨exec_smDec_toInt_of_pattern h rfl hu, rfl⟩

/-! ### The fields DEC reads, as frame bits (40_codec.md R120) -/

theorem ext_frame_toNat (s : State) (lo w : Nat) :
    (ext (framePayload s.frame) lo w).toNat = bits (frameNat s) (8 + lo) w := by
  rw [ext_framePayload_toNat, frame_toNat]; rfl

theorem setWidth_ext_frame_toNat (s : State) (lo : Nat) {w : Nat} (h : w ≤ 32) :
    ((ext (framePayload s.frame) lo w).setWidth 32).toNat = bits (frameNat s) (8 + lo) w := by
  rw [BitVec.toNat_setWidth_of_le h, ext_frame_toNat]

theorem smValue_ext_frame_toInt (s : State) (lo : Nat) {w : Nat} (h : 1 ≤ w) (h' : w ≤ 32) :
    (smValue (ext (framePayload s.frame) lo w)).toInt = smInt (bits (frameNat s) (8 + lo) w) w := by
  rw [smValue_toInt h h', ext_frame_toNat]

/-- Every kind byte outside 1 to 3 is unrecognized (40_codec.md R120, R124). -/
theorem unpackFrame_unrecognized {k : Byte} (h1 : k.toNat ≠ 1) (h2 : k.toNat ≠ 2) (h3 : k.toNat ≠ 3) (s : State)
    (p : Payload) : s.unpackFrame k p = s.unrecognizedKind := by
  have hne (j : Byte) (hj : k.toNat ≠ j.toNat) : k ≠ j := fun h => hj (congrArg BitVec.toNat h)
  rw [State.unpackFrame, if_neg (hne kindElectric h1), if_neg (hne kindMotion h2), if_neg (hne kindSensor h3)]

/-! ### The statements of 40_codec.md -/

/-- Settles O28, by the sum of the packed Electric fields. -/
theorem encElecBuildsTheElectricFrame : Obligations.EncElecBuildsTheElectricFrame := by
  unfold Obligations.EncElecBuildsTheElectricFrame
  refine ⟨by decide, fun s => ⟨_, rfl, ?_, rfl⟩⟩
  refine (frameNat_eq_of_frame (frame_setFrame s _)).trans ?_
  rw [packElectric_toNat, BitVec.toNat_setWidth, voltField_toNat, smField_toNat_eq_smCode (by decide),
    BitVec.extractLsb'_toNat, Nat.shiftRight_zero, BitVec.toNat_setWidth, show kindElectric.toNat = 1 from rfl]
  omega

/-- Settles O29, by the sum of the packed Motion fields. -/
theorem encMotionBuildsTheMotionFrame : Obligations.EncMotionBuildsTheMotionFrame := by
  unfold Obligations.EncMotionBuildsTheMotionFrame
  refine ⟨by decide, fun s => ⟨_, rfl, ?_, rfl⟩⟩
  rw [frameNat_eq_of_frame (frame_setFrame s.beginCommand _), packMotion_toNat, BitVec.toNat_setWidth,
    BitVec.toNat_setWidth, show kindMotion.toNat = 2 from rfl]
  omega

/-- Settles O30, by the sum of the packed SensorBlock fields. -/
theorem encSensorBuildsTheSensorFrame : Obligations.EncSensorBuildsTheSensorFrame := by
  unfold Obligations.EncSensorBuildsTheSensorFrame
  refine ⟨by decide, fun s => ⟨_, rfl, ?_, rfl⟩⟩
  have hcode := smField_toNat_eq_smCode (n := 9) (by decide)
  refine (frameNat_eq_of_frame (frame_setFrame s _)).trans ?_
  rw [packSensor_toNat, hcode, hcode, hcode, show kindSensor.toNat = 3 from rfl]
  omega

/-- Settles O31, field by field. -/
theorem decUnpacksElectric : Obligations.DecUnpacksElectric := by
  unfold Obligations.DecUnpacksElectric
  intro s hk
  have field (lo : Nat) {w : Nat} (h : w ≤ 32) := setWidth_ext_frame_toNat s lo h
  exact ⟨_, exec_dec (frameKind_eq_of_frameNat (k := kindElectric) hk), field 0 (by decide), field 13 (by decide),
    smValue_ext_frame_toInt s 23 (by decide) (by decide), field 37 (by decide), field 48 (by decide), rfl⟩

/-- Settles O32, field by field. -/
theorem decUnpacksMotion : Obligations.DecUnpacksMotion := by
  unfold Obligations.DecUnpacksMotion
  intro s hk
  exact ⟨_, exec_dec (frameKind_eq_of_frameNat (k := kindMotion) hk), setWidth_ext_frame_toNat s 0 (by decide),
    ext_frame_toNat s 13 32, setWidth_ext_frame_toNat s 45 (by decide), rfl⟩

/-- Settles O33, field by field. -/
theorem decUnpacksSensor : Obligations.DecUnpacksSensor := by
  unfold Obligations.DecUnpacksSensor
  intro s hk
  have field (lo : Nat) := smValue_ext_frame_toInt s lo (w := 9) (by decide) (by decide)
  exact ⟨_, exec_dec (frameKind_eq_of_frameNat (k := kindSensor) hk), field 0, field 9, field 18, rfl⟩

/-- Settles O34: the kind byte is none of the three, so DEC takes its last case. -/
theorem decCountsUnrecognizedKinds : Obligations.DecCountsUnrecognizedKinds := by
  unfold Obligations.DecCountsUnrecognizedKinds
  intro s h1 h2 h3
  have hk : (frameKind s.frame).toNat = frameNat s % 256 := by rw [frameKind_toNat, frame_toNat]; rfl
  rw [← hk] at h1 h2 h3
  refine ⟨_, (exec_dec rfl).trans (congrArg _ (unpackFrame_unrecognized h1 h2 h3 _ _)), ?_, hk, rfl⟩
  exact BitVec.toNat_add s.decErrCnt 1

/-- Settles O35: an illegal width makes no well-formed term, a legal one runs `exec_smEnc`. -/
theorem smEncEncodesWithSaturation : Obligations.SmEncEncodesWithSaturation := by
  unfold Obligations.SmEncEncodesWithSaturation
  have hword (n : Arg) : encode (.smEnc n) = 0x00000005 + 256 * n.setWidth 32 := formatC_eq_add _ _
  refine ⟨fun n hn ⟨i, hi⟩ => ?_, fun n s h2 h32 =>
    ⟨hword n, _, exec_smEnc ((widthLegal_iff n).2 ⟨h2, h32⟩) s, ?_, ?_⟩⟩
  · rw [← hword] at hi
    have hlegal := (widthLegal_iff n).1 (wellFormed_of_decode_encode hi)
    omega
  · exact (ofNat_smencPattern_toNat _ (by omega) h32).trans (smencPattern_eq_smCode _ _)
  · rw [smencSat_eq_smTooBig]

/-- Settles O36, by `exec_smDec`: the pattern decoded is ARG_A's low bits. -/
theorem smDecDecodesItsLowBits : Obligations.SmDecDecodesItsLowBits := by
  unfold Obligations.SmDecDecodesItsLowBits
  intro n s h2 h32
  refine ⟨formatC_eq_add _ _, _, exec_smDec ((widthLegal_iff n).2 ⟨h2, h32⟩) s, ?_, rfl⟩
  rw [u32_smdec_toInt _ h32, smdec_eq_smInt (by omega) (Nat.mod_lt _ (Nat.two_pow_pos _))]

/-- Settles O37: the laws of the two functions, carried to the commands by `exec_smEnc` and `exec_smDec`. -/
theorem signMagnitudeRoundTrip : Obligations.SignMagnitudeRoundTrip := by
  unfold Obligations.SignMagnitudeRoundTrip
  intro n h2 h32
  have h1 : 1 ≤ n.toNat := by omega
  have hlegal := (widthLegal_iff n).2 ⟨h2, h32⟩
  refine ⟨fun v => ⟨smdec_smencPattern_of_fits h1, smdec_smencPattern_of_tooBig h1⟩, fun s => ?_, fun s hs => ?_,
    fun s s' u u' hu hu' hb hb' hz hz' heq => ?_, fun v hv s => ?_⟩
  · obtain ⟨t, ht⟩ := exec_next (.smEnc n) s
    obtain ⟨u, hu⟩ := exec_next (.smDec n) { t with argA := t.result }
    obtain ⟨hval, hsat⟩ := exec_smEnc_smDec hlegal ht hu
    refine ⟨t, u, ht, hu, fun hv => ?_, fun hv => ?_⟩
    · obtain ⟨hdec, hno⟩ := smdec_smencPattern_of_fits h1 hv
      exact ⟨BitVec.eq_of_toInt_eq (hval.trans hdec), hsat.trans hno⟩
    · obtain ⟨hdec, hyes⟩ := smdec_smencPattern_of_tooBig h1 hv
      exact ⟨hval.trans hdec, hsat.trans hyes⟩
  · have hzero : s.argA.toNat = 2 ^ (n.toNat - 1) ∨ s.argA.toNat = 0 := hs.imp_right (congrArg BitVec.toNat)
    have hlt : 2 ^ (n.toNat - 1) < 2 ^ n.toNat := Nat.pow_lt_pow_right (by decide) (by omega)
    have hpos := Nat.two_pow_pos n.toNat
    have hb : s.argA.toNat < 2 ^ n.toNat := by omega
    obtain ⟨u, hu⟩ := exec_next (.smDec n) s
    exact ⟨u, hu, BitVec.eq_of_toInt_eq ((exec_smDec_toInt hlegal hb hu).trans (smdec_zeros h1 hzero))⟩
  · have hdec : smdec s.argA.toNat n.toNat = smdec s'.argA.toNat n.toNat := by
      rw [← exec_smDec_toInt hlegal hb hu, ← exec_smDec_toInt hlegal hb' hu', heq]
    exact BitVec.eq_of_toNat_eq (smdec_injective h1 hb hb' hz hz' hdec)
  · have hpat := ofNat_smencPattern_toNat v h1 h32
    refine ⟨BitVec.ofNat 32 (smencPattern v n.toNat), ?_, ?_, _, exec_smDec hlegal _, ?_⟩
    · rw [hpat]; exact smencPattern_lt v h1
    · rw [hpat]; exact smencPattern_ne_negZero v h2
    · exact (exec_smDec_toInt_of_pattern hlegal rfl (exec_smDec hlegal _)).trans (smdec_smencPattern_of_fits h1 hv).1

/-- Settles O27. -/
theorem nopOnlyClearsTransientBits : Obligations.NopOnlyClearsTransientBits := by
  unfold Obligations.NopOnlyClearsTransientBits
  exact ⟨rfl, fun s => rfl⟩

end Sys2Proof.Machine

/-! SUPPORT. Facts the accumulator statements share (41_accumulator.md): the deltas, the distances, the speed and the
energy as the spec's numbers, and on what the distances depend. Then the statements of 41_accumulator.md themselves. -/

namespace Sys2Proof.Machine

open Sys2Proof.Claims

/-! ### Deltas (41_accumulator.md R140, R145) -/

/-- A 13-bit reference and a register whose bits 31:13 are ignored. -/
theorem delta13_setWidth_toNat (a : BitVec 13) (b : Word) :
    ((delta13 a (b.setWidth 13)).toNat : Int) = ((b.toNat : Int) - a.toNat) % 8192 := by
  rw [delta13_toNat, BitVec.toNat_setWidth]
  omega

/-! ### Distances (41_accumulator.md R142 to R144, R154) -/

theorem mm_eq_millimetres {s : State} (h : 1 ≤ s.mmpr.toNat) (p : Word) :
    mm s.ppr s.mmpr p = millimetres s p.toNat := mm_eq s.ppr h p

theorem metersOf_toNat {s : State} (h : 1 ≤ s.mmpr.toNat) (p : Word) :
    (s.metersOf p).toNat = millimetres s p.toNat / 1000 % 2 ^ 32 := by
  rw [State.metersOf, meters, BitVec.toNat_ofNat, mm_eq_millimetres h]

theorem total_toNat (s : State) : s.total.toNat = totalPulses s := BitVec.toNat_add _ _

/-- The metres a counter shows are its distance (41_accumulator.md R154). -/
theorem metersOf_total_sub_toNat {s : State} (h : 1 ≤ s.mmpr.toNat) (trip : Word) :
    (s.metersOf (s.total - trip)).toNat = distance s trip := by
  have hsub : (s.total - trip).toNat = (totalPulses s + 2 ^ 32 - trip.toNat) % 2 ^ 32 := by
    have := trip.isLt
    rw [BitVec.toNat_sub, total_toNat]
    omega
  rw [metersOf_toNat h, hsub, distance]

theorem recomputeDist_toNat {s : State} (h : 1 ≤ s.mmpr.toNat) :
    s.recomputeDist.dist0.toNat = distance s s.trip0 ∧ s.recomputeDist.dist1.toNat = distance s s.trip1 ∧
      s.recomputeDist.dist2.toNat = distance s s.trip2 :=
  ⟨metersOf_total_sub_toNat h _, metersOf_total_sub_toNat h _, metersOf_total_sub_toNat h _⟩

/-- A counter whose baseline is the total shows no distance, whatever PPR and MMPR (41_accumulator.md R156). -/
theorem metersOf_sub_self (s : State) (p : Word) : s.metersOf (p - p) = 0 := by
  rw [BitVec.sub_self]
  exact meters_zero _ _

/-- How ODO_BASE and ODO_RUN share the total does not matter to the distances (41_accumulator.md R158). -/
theorem recomputeDist_congr {s t : State} (htotal : t.total = s.total) (hppr : t.ppr = s.ppr) (hmmpr : t.mmpr = s.mmpr)
    (h0 : t.trip0 = s.trip0) (h1 : t.trip1 = s.trip1) (h2 : t.trip2 = s.trip2) :
    t.recomputeDist.dist0 = s.recomputeDist.dist0 ∧ t.recomputeDist.dist1 = s.recomputeDist.dist1 ∧
      t.recomputeDist.dist2 = s.recomputeDist.dist2 ∧ totalPulses t.recomputeDist = totalPulses s.recomputeDist := by
  have hdist {a b : Word} (h : a = b) : t.metersOf (t.total - a) = s.metersOf (s.total - b) := by
    rw [State.metersOf, State.metersOf, hppr, hmmpr, htotal, h]
  have hpulses : totalPulses t = totalPulses s := by rw [← total_toNat, ← total_toNat, htotal]
  exact ⟨hdist h0, hdist h1, hdist h2, hpulses⟩

theorem foldOdometer_total (s : State) : s.foldOdometer.total = s.total := BitVec.add_zero _

theorem applyMotion_foldOdometer_total (s : State) : s.foldOdometer.applyMotion.total = s.applyMotion.total := by
  change s.odoBase + s.odoRun + (0 + s.pulseDelta) = s.odoBase + (s.odoRun + s.pulseDelta)
  rw [zero_add, add_assoc]

/-! ### The precision of the order switch (41_accumulator.md R144, R148) -/

theorem mm_of_le_threshold {ppr mmpr : BitVec 16} {p : Word} (h : p.toNat ≤ safeMulThreshold mmpr) :
    mm ppr mmpr p = p.toNat * mmpr.toNat / ppr.toNat := if_pos h

theorem mm_of_threshold_lt {ppr mmpr : BitVec 16} {p : Word} (h : safeMulThreshold mmpr < p.toNat) :
    mm ppr mmpr p = p.toNat / ppr.toNat * mmpr.toNat := if_neg (Nat.not_le.2 h)

/-- Dividing first loses less than one revolution. -/
theorem div_mul_le_and_lt {p r m : Nat} (hr : 1 ≤ r) (hm : 1 ≤ m) :
    p / r * m * r ≤ p * m ∧ p * m < (p / r * m + m) * r := by
  have hle : p / r * r ≤ p := Nat.div_mul_le_self p r
  have hlt : p < (p / r + 1) * r := Nat.lt_mul_of_div_lt (Nat.lt_succ_self _) hr
  constructor
  · calc p / r * m * r = p / r * r * m := by ring
      _ ≤ p * m := Nat.mul_le_mul_right m hle
  · calc p * m < (p / r + 1) * r * m := Nat.mul_lt_mul_of_pos_right hlt hm
      _ = (p / r * m + m) * r := by ring

/-- Metres of a revolution no longer than 1000 mm a pulse are at most the pulses, so they do not wrap. -/
theorem mm_div_lt {ppr mmpr : BitVec 16} (hm : 1 ≤ mmpr.toNat) (h : mmpr.toNat ≤ 1000 * ppr.toNat) (p : Word) :
    mm ppr mmpr p / 1000 < 2 ^ 32 := by
  rcases Nat.lt_or_ge (safeMulThreshold mmpr) p.toNat with hp | hp
  · have hle : p.toNat / ppr.toNat * mmpr.toNat ≤ 1000 * p.toNat :=
      calc p.toNat / ppr.toNat * mmpr.toNat ≤ p.toNat / ppr.toNat * (1000 * ppr.toNat) := Nat.mul_le_mul_left _ h
        _ = 1000 * (p.toNat / ppr.toNat * ppr.toNat) := by ring
        _ ≤ 1000 * p.toNat := Nat.mul_le_mul_left _ (Nat.div_mul_le_self _ _)
    rw [mm_of_threshold_lt hp]
    have := p.isLt
    omega
  · have hfits := (le_safeMulThreshold hm _).1 hp
    have hdiv := Nat.div_le_self (p.toNat * mmpr.toNat) ppr.toNat
    rw [mm_of_le_threshold hp]
    omega

/-! ### Speed (41_accumulator.md R151) -/

theorem speedOf_toNat {s : State} (h : 1 ≤ s.mmpr.toNat) (dp : Word) (dt : BitVec 13) :
    (speedOf s.ppr s.mmpr dp dt).toNat = min (36 * millimetres s dp.toNat / max dt.toNat 1) (2 ^ 32 - 1) := by
  have hmax : (if dt.toNat = 0 then 1 else dt.toNat) = max dt.toNat 1 := by split <;> omega
  rw [speedOf, hmax, mm_eq_millimetres h, BitVec.toNat_ofNat]
  exact Nat.mod_eq_of_lt ((min_le_right _ _).trans_lt (by decide))

/-! ### Energy (41_accumulator.md R160, R162, R170) -/

theorem sampleCurrent_eq_mul (s : State) : s.sampleCurrent = (if s.currInv then -1 else 1) * s.eCurr.toInt := by
  unfold State.sampleCurrent effectiveCurrent s32
  split <;> omega

theorem electricDelta_of_no_reference {s : State} (h : s.status.eref = false) : s.electricDelta = 0 := by
  simp [State.electricDelta, h]

theorem electricDelta_toNat {s : State} (h : s.status.eref = true) :
    (s.electricDelta.toNat : Int) = ((s.eTs.toNat : Int) - s.eTsRef.toNat) % 8192 := by
  rw [State.electricDelta, if_pos h, delta13_setWidth_toNat]

/-- An energy sum under a condition on the sign of the current. -/
theorem toNat_ite_add_energyOf (c : Prop) [Decidable c] (acc : DWord) (v : Word) (i : Int) (dt : BitVec 13) :
    (if c then acc + energyOf v i dt else acc).toNat =
      (acc.toNat + if c then v.toNat * i.natAbs * dt.toNat else 0) % 2 ^ 64 := by
  split
  · rw [energyOf, BitVec.toNat_add, BitVec.toNat_ofNat, Nat.add_mod_mod]
  · exact (Nat.mod_eq_of_lt acc.isLt).symm

/-- An energy that is positive and below 2^64 changes the sum it is added to (41_accumulator.md R162). -/
theorem add_energyOf_ne {v : Word} {i : Int} {dt : BitVec 13} (hv : 0 < v.toNat) (hi : i ≠ 0) (hdt : 0 < dt.toNat)
    (hfits : v.toNat * i.natAbs * dt.toNat < 2 ^ 64) (acc : DWord) : acc + energyOf v i dt ≠ acc := by
  have hpos : 0 < v.toNat * i.natAbs * dt.toNat := Nat.mul_pos (Nat.mul_pos hv (Int.natAbs_pos.2 hi)) hdt
  intro heq
  have hzero : (energyOf v i dt).toNat = 0 := congrArg BitVec.toNat (add_eq_left.1 heq)
  rw [energyOf, BitVec.toNat_ofNat, Nat.mod_eq_of_lt hfits] at hzero
  omega

theorem u32_clamp_toInt (x : Int) :
    (u32 (clamp x (-(2 ^ 31)) (2 ^ 31 - 1))).toInt = max (-2 ^ 31) (min (2 ^ 31 - 1) x) := by
  rw [u32, BitVec.toInt_ofInt, clamp, Int.bmod_eq_of_le (by omega) (by omega), min_comm]

/-- Truncation toward zero by floor division on each side of 0 (00_scope.md R12). -/
theorem tdiv_eq (x d : Int) : tdiv x d = if 0 ≤ x then x / d else -(-x / d) := by
  unfold tdiv
  split
  · exact Int.tdiv_eq_ediv_of_nonneg ‹_›
  · rw [← Int.tdiv_eq_ediv_of_nonneg (by omega), Int.neg_tdiv, Int.neg_neg]

/-! ### The statements of 41_accumulator.md -/

/-- Settles O41: 13-bit subtraction of the low halves is subtraction modulo 8192 of the whole words. -/
theorem delta13SubtractsModulo8192 : Obligations.Delta13SubtractsModulo8192 := by
  unfold Obligations.Delta13SubtractsModulo8192
  refine ⟨by decide, fun s => ⟨_, rfl, ?_, rfl⟩⟩
  rw [State.setResult_result, BitVec.toNat_setWidth_of_le (by decide), delta13_setWidth_toNat, BitVec.toNat_setWidth]
  omega

/-- Settles O43, by `metersOf_toNat`. -/
theorem pulse2mConvertsToMetres : Obligations.Pulse2mConvertsToMetres := by
  unfold Obligations.Pulse2mConvertsToMetres
  exact ⟨by decide, fun s _ hm => ⟨_, rfl, metersOf_toNat hm s.argA, rfl⟩⟩

/-- Settles O44, by `le_safeMulThreshold`. -/
theorem safeMulThresholdIsTheLargest : Obligations.SafeMulThresholdIsTheLargest := by
  unfold Obligations.SafeMulThresholdIsTheLargest
  exact fun mmpr hm => ⟨rfl, le_safeMulThreshold hm, by decide⟩

/-- Settles O45: the two orders are the branches of `mm`, and `mm_div_lt` excludes the wrap. -/
theorem metresWrapOnlyForLongRevolutions : Obligations.MetresWrapOnlyForLongRevolutions := by
  unfold Obligations.MetresWrapOnlyForLongRevolutions
  intro ppr mmpr p _ hm
  have hmeters : (meters ppr mmpr p).toNat = mm ppr mmpr p / 1000 % 2 ^ 32 := BitVec.toNat_ofNat _ _
  exact ⟨mm_of_le_threshold, mm_of_threshold_lt, mm_lt ppr mmpr p, hmeters,
    fun h => hmeters.trans (Nat.mod_eq_of_lt (mm_div_lt hm h p))⟩

/-- Settles O46: dividing first loses less than one revolution; 65537 pulses at PPR = MMPR = 65535 step back. -/
theorem precisionOfTheOrderSwitch : Obligations.PrecisionOfTheOrderSwitch := by
  unfold Obligations.PrecisionOfTheOrderSwitch
  intro ppr mmpr p hr hm
  have hloss (q : Nat) := div_mul_le_and_lt (p := q) hr hm
  refine ⟨fun hp => ?_, ?_, fun hp hnext => ?_, 65535, 65535, 65537,
    by decide, by decide, by decide, by decide, by decide⟩
  · rw [mm_of_threshold_lt hp]
    exact hloss _
  · obtain ⟨hle, hlt⟩ := hloss p.toNat
    have hle' := (Nat.le_div_iff_mul_le hr).2 hle
    have hlt' := (Nat.div_lt_iff_lt_mul hr).2 hlt
    omega
  · have hsucc : (p + 1).toNat = p.toNat + 1 := by rw [BitVec.toNat_add]; exact Nat.mod_eq_of_lt hnext
    obtain ⟨-, hlt⟩ := hloss (p.toNat + 1)
    rw [mm_of_le_threshold hp.le, mm_of_threshold_lt (by omega), hsucc, Nat.div_lt_iff_lt_mul hr]
    exact (Nat.mul_le_mul_right _ (Nat.le_succ _)).trans_lt hlt

/-- Settles O47: the two cases of MREF, then the distances of the state the sample leaves. -/
theorem accMotionAppliesOneSample : Obligations.AccMotionAppliesOneSample := by
  unfold Obligations.AccMotionAppliesOneSample
  refine ⟨by decide, fun s _ hm => ⟨_, rfl, fun hfirst => ?_, fun hlater => ?_, BitVec.toNat_setWidth _ _, ?_⟩⟩
  · simp [State.pulseDelta, State.sampleSpeed, hfirst]
  · refine ⟨(delta32 s.pulseRef s.mPulses).toNat, (delta13 s.mTsRef (s.mTs.setWidth 13)).toNat, BitVec.isLt _,
      BitVec.isLt _, delta32_toNat _ _, delta13_setWidth_toNat _ _, ?_, ?_⟩
    · simp [State.pulseDelta, hlater]
    · simp [State.pulseDelta, State.sampleSpeed, hlater, speedOf_toNat hm]
  · obtain ⟨h0, h1, h2⟩ := recomputeDist_toNat (s := s.applyMotion.setStatus s.status.clearTransient.setMref) hm
    exact ⟨h0, h1, h2, rfl⟩

/-- Settles O48, by `recomputeDist_toNat`. -/
theorem distUpdRecomputesTheDistances : Obligations.DistUpdRecomputesTheDistances := by
  unfold Obligations.DistUpdRecomputesTheDistances
  refine ⟨by decide, fun s _ hm => ?_⟩
  obtain ⟨h0, h1, h2⟩ := recomputeDist_toNat (s := s.beginCommand) hm
  exact ⟨_, rfl, h0, h1, h2, rfl⟩

/-- Settles O49: a larger index makes no well-formed term, and a counter that starts at the total is at distance 0. -/
theorem tripResetStartsOneCounterAgain : Obligations.TripResetStartsOneCounterAgain := by
  unfold Obligations.TripResetStartsOneCounterAgain
  refine ⟨by decide, by decide, by decide, fun k hk ⟨i, hi⟩ => ?_, fun s => ?_⟩
  · have hword : encode (.tripReset k) = 0x00000015 + 256 * k.setWidth 32 := formatC_eq_add _ _
    rw [← hword] at hi
    have hlegal : k.toNat ≤ 2 := of_decide_eq_true (wellFormed_of_decode_encode hi)
    omega
  · have hzero : s.metersOf (s.total - s.total) = 0 := metersOf_sub_self s _
    have htotal := total_toNat s
    exact ⟨⟨_, _, rfl, htotal, rfl, rfl, hzero⟩, ⟨_, _, rfl, htotal, rfl, rfl, hzero⟩,
      ⟨_, _, rfl, htotal, rfl, rfl, hzero⟩⟩

/-- Settles O51: the fold keeps the total, and the distances depend on no other sum of the odometer. -/
theorem foldLeavesEveryDistance : Obligations.FoldLeavesEveryDistance := by
  unfold Obligations.FoldLeavesEveryDistance
  intro s
  have hfold := foldOdometer_total s.beginCommand
  refine ⟨_, rfl, ?_, rfl, rfl, rfl, rfl, rfl, rfl, ?_⟩
  · rw [← total_toNat, hfold, ← total_toNat]
    rfl
  · rintro i (rfl | rfl)
    · exact ⟨_, _, rfl, rfl, recomputeDist_congr hfold rfl rfl rfl rfl rfl⟩
    · exact ⟨_, _, rfl, rfl, recomputeDist_congr (applyMotion_foldOdometer_total s) rfl rfl rfl rfl rfl⟩

/-- Settles O53: the energy sums are `toNat_ite_add_energyOf`, the time is 0 or a 13-bit delta. -/
theorem accElecIntegratesOneSample : Obligations.AccElecIntegratesOneSample := by
  unfold Obligations.AccElecIntegratesOneSample
  refine ⟨by decide, fun s => ⟨_, s.electricDelta.toNat, s.sampleCurrent, rfl, fun hfirst => ?_,
    electricDelta_toNat, sampleCurrent_eq_mul s, toNat_ite_add_energyOf _ _ _ _ _, toNat_ite_add_energyOf _ _ _ _ _,
    BitVec.toNat_setWidth _ _, rfl⟩⟩
  rw [electricDelta_of_no_reference hfirst]; rfl

/-- Settles O54: the sign of the current chooses the sum, and `add_energyOf_ne` says that it changes. -/
theorem energySplitBySign : Obligations.EnergySplitBySign := by
  unfold Obligations.EnergySplitBySign
  intro s t ht i dt
  cases ht
  have hC : (s.applyElectric.setStatus s.status.clearTransient.setEref).eaccC =
      if 0 < i then s.eaccC + energyOf s.eVolt i s.electricDelta else s.eaccC := rfl
  have hR : (s.applyElectric.setStatus s.status.clearTransient.setEref).eaccR =
      if i < 0 then s.eaccR + energyOf s.eVolt i s.electricDelta else s.eaccR := rfl
  have htime (href : s.status.eref = true) : dt = s.electricDelta.toNat := (electricDelta_toNat href).symm
  clear_value i dt
  rw [hC, hR]
  refine ⟨fun h => if_neg (by omega), fun h => if_neg (by omega), fun h => ⟨if_neg (by omega), if_neg (by omega)⟩,
    fun href hv hdt hfits => ?_⟩
  obtain rfl := htime href
  have hchange (hi : i ≠ 0) := add_energyOf_ne hv hi (Int.natCast_pos.1 hdt) hfits
  exact ⟨fun h => ne_of_eq_of_ne (if_pos h) (hchange (by omega) _),
    fun h => ne_of_eq_of_ne (if_pos h) (hchange (by omega) _)⟩

/-- Settles O55: the gate is `execEFold`'s condition; NORM is a truncated quotient, clamped. -/
theorem eFoldGatesFoldsAndNormalizes : Obligations.EFoldGatesFoldsAndNormalizes := by
  unfold Obligations.EFoldGatesFoldsAndNormalizes
  refine ⟨by decide, fun s h => if_neg (Nat.not_lt.2 h), fun s h => ⟨_, _, _, if_pos h, BitVec.toNat_add _ _,
    BitVec.toNat_add _ _, rfl, rfl, ?_, rfl⟩⟩
  exact (u32_clamp_toInt _).trans (by rw [tdiv_eq]; rfl)

/-- Settles O42, by `delta32_toNat`. -/
theorem delta32SubtractsModulo2Pow32 : Obligations.Delta32SubtractsModulo2Pow32 := by
  unfold Obligations.Delta32SubtractsModulo2Pow32
  exact ⟨by decide, fun s => ⟨_, rfl, delta32_toNat _ _, rfl⟩⟩

/-- Settles O50, by `total_toNat`. -/
theorem odoFoldMovesTheRuntimePulses : Obligations.OdoFoldMovesTheRuntimePulses := by
  unfold Obligations.OdoFoldMovesTheRuntimePulses
  exact ⟨by decide, fun s => ⟨_, rfl, total_toNat s, rfl⟩⟩

end Sys2Proof.Machine

/-! SUPPORT. The derived outputs DIST0..2, SPEED and NORM (70_reset_and_hazards.md R211): everything but the commands
that recompute them leaves them stale. Then the statement of 70_reset_and_hazards.md itself. -/

namespace Sys2Proof.Machine

open Sys2Proof.Claims

/-! ### What keeps the derived outputs -/

/-- DIST0, DIST1, DIST2, SPEED and NORM (70_reset_and_hazards.md R211). -/
def State.derivedOutputs (s : State) : Word × Word × Word × Word × Word :=
  (s.dist0, s.dist1, s.dist2, s.speed, s.norm)

/-- A host write leaves them stale: all five are read-only (10_state.md R49). -/
theorem writeReg_derivedOutputs (s : State) (v : Word) (r : Reg) :
    (s.writeReg v r).derivedOutputs = s.derivedOutputs := by
  cases r <;> rfl

theorem unpackFrame_derivedOutputs (s : State) (k : Byte) (p : Payload) :
    (s.unpackFrame k p).derivedOutputs = s.derivedOutputs := by
  unfold State.unpackFrame; split_ifs <;> rfl

/-! ### What changes them -/

/-- From s to t each derived output is as before, or a command that writes it was performed (70_reset_and_hazards.md
R211); `performed i` says that command i was. -/
structure DerivedChangedBy (performed : Instr → Prop) (s t : State) : Prop where
  dist0 : t.dist0 ≠ s.dist0 → performed .accMotion ∨ performed .distUpd ∨ performed (.tripReset 0)
  dist1 : t.dist1 ≠ s.dist1 → performed .accMotion ∨ performed .distUpd ∨ performed (.tripReset 1)
  dist2 : t.dist2 ≠ s.dist2 → performed .accMotion ∨ performed .distUpd ∨ performed (.tripReset 2)
  speed : t.speed ≠ s.speed → performed .accMotion
  norm : t.norm ≠ s.norm → performed .eFold ∧ s.minTravelM.toNat < s.argA.toNat

section
variable {performed : Instr → Prop} {s t : State}

theorem DerivedChangedBy.of_kept (h : t.derivedOutputs = s.derivedOutputs) : DerivedChangedBy performed s t := by
  simp only [State.derivedOutputs, Prod.mk.injEq] at h
  obtain ⟨h0, h1, h2, hspeed, hnorm⟩ := h
  exact ⟨absurd h0, absurd h1, absurd h2, absurd hspeed, absurd hnorm⟩

/-- A recomputation of the distances, by one of the two commands that do it (41_accumulator.md R150, R153). -/
theorem DerivedChangedBy.of_recompute (hdist : performed .accMotion ∨ performed .distUpd)
    (hspeed : t.speed ≠ s.speed → performed .accMotion) (hnorm : t.norm = s.norm) :
    DerivedChangedBy performed s t :=
  have hd {p : Prop} : performed .accMotion ∨ performed .distUpd ∨ p := hdist.imp_right .inl
  ⟨fun _ => hd, fun _ => hd, fun _ => hd, hspeed, absurd hnorm⟩

/-- TRIP_RESET k writes DISTk alone (41_accumulator.md R156). -/
theorem beginCommand_resetTrip_derivedChangedBy {k : Arg} (hp : performed (.tripReset k)) :
    DerivedChangedBy performed s (s.beginCommand.resetTrip k.toNat) := by
  have hk (n : Arg) (h : k.toNat = n.toNat) : performed (.tripReset n) := BitVec.eq_of_toNat_eq h ▸ hp
  unfold State.resetTrip
  split
  case h_1 h => exact ⟨fun _ => .inr (.inr (hk 0 h)), absurd rfl, absurd rfl, absurd rfl, absurd rfl⟩
  case h_2 h => exact ⟨absurd rfl, fun _ => .inr (.inr (hk 1 h)), absurd rfl, absurd rfl, absurd rfl⟩
  case h_3 h => exact ⟨absurd rfl, absurd rfl, fun _ => .inr (.inr (hk 2 h)), absurd rfl, absurd rfl⟩
  case h_4 => exact .of_kept rfl

/-- Only ACC_MOTION, DIST_UPD, TRIP_RESET k and a folding E_FOLD write a derived output (10_state.md R52). -/
theorem exec_derivedChangedBy {i : Instr} (hp : performed i) (h : exec i s = .next t) :
    DerivedChangedBy performed s t := by
  cases i <;> simp only [exec, execSmEnc, execSmDec, execTripReset, execEFold] at h
  case accMotion => cases h; exact .of_recompute (.inl hp) (fun _ => hp) rfl
  case distUpd => cases h; exact .of_recompute (.inr hp) (absurd rfl) rfl
  case tripReset =>
    split at h <;> cases h
    · exact beginCommand_resetTrip_derivedChangedBy hp
    · exact .of_kept rfl
  case eFold =>
    split at h <;> cases h
    case isTrue hgate => exact ⟨absurd rfl, absurd rfl, absurd rfl, absurd rfl, fun _ => ⟨hp, hgate⟩⟩
    case isFalse => exact .of_kept rfl
  case dec => cases h; exact .of_kept (unpackFrame_derivedOutputs _ _ _)
  case smEnc | smDec => split at h <;> cases h <;> exact .of_kept rfl
  all_goals cases h; exact .of_kept rfl

end

/-- An event other than reset changes a derived output only as the write of a command that writes it. -/
theorem hostEvent_derivedChangedBy {e : HostEvent} {s t : State} (h : hostEvent e s = .next t) (hr : e ≠ .reset) :
    DerivedChangedBy (fun i => writesCmd e (encode i)) s t := by
  rcases hostEvent_next h with ⟨off, -, -, rfl⟩ | ⟨w, i, rfl, hd, hx⟩ | ⟨w, x, -, -, rfl⟩ | ⟨r, v, -, -, rfl⟩ |
    ⟨off, v, -, -, rfl⟩ | ⟨rfl, -⟩
  · exact .of_kept rfl
  · exact exec_derivedChangedBy (by rw [encode_of_decode hd]; rfl) hx
  · exact .of_kept rfl
  · exact .of_kept (writeReg_derivedOutputs s v r)
  · exact .of_kept rfl
  · exact absurd rfl hr

/-! ### The statement of 70_reset_and_hazards.md -/

/-- Settles O26: `hostEvent_derivedChangedBy` with the words of the five commands written out. -/
theorem derivedOutputsChangeOnlyByTheirCommands : Obligations.DerivedOutputsChangeOnlyByTheirCommands := by
  unfold Obligations.DerivedOutputsChangeOnlyByTheirCommands
  intro s t e rest hp ht hr
  rw [step_cons hp] at ht
  obtain ⟨h0, h1, h2, hspeed, hnorm⟩ := hostEvent_derivedChangedBy ht hr
  exact ⟨h0, h1, h2, hspeed, hnorm⟩

end Sys2Proof.Machine

/-! SUPPORT. Facts the remaining statements share: a command and its word, what each kind of host event answers, what a
command may write, which STATUS bits it may raise, the invariant's parts, the frame round trips, and runs of reads and
of writes. Then the statements themselves: of the encoding, the bus, STATUS and the registers, of what a command writes,
of the frame round trips, of save and boot, and of the invariant. -/

namespace Sys2Proof.Machine

open Sys2Proof.Claims

/-! ### A command and its word (30_encoding.md R80 to R83) -/

theorem decode_encode {i : Instr} (h : i.wellFormed = true) : decode (encode i) = .ok i := by
  obtain ⟨-, harg, hz, hmap⟩ := Laws.EncodedFields.of_formatC i
  exact (decode_eq_ok_iff _ _).2 ⟨hz, hmap, harg.symm, h⟩

theorem decode_of_encode {w : Word} {i : Instr} (hw : encode i = w) (h : i.wellFormed = true) : decode w = .ok i :=
  hw ▸ decode_encode h

/-- The word of a term that is no command does not decode (30_encoding.md R83, R88). -/
theorem decode_encode_error {i : Instr} (h : i.wellFormed = false) : ∃ r, decode (encode i) = .error r := by
  cases hd : decode (encode i) with
  | ok j => simp [wellFormed_of_decode_encode hd] at h
  | error r => exact ⟨r, rfl⟩

/-- A term that is no command has the effect of an illegal word (log entry 3). -/
theorem exec_illFormed {i : Instr} (h : i.wellFormed = false) (s : State) : exec i s = .next s.illegalCommand := by
  have ill {b : Bool} (hb : b = false) : ¬ b = true := by simp [hb]
  cases i
  case smEnc | smDec | tripReset => exact if_neg (ill h)
  all_goals cases h

theorem runCommand_encode (i : Instr) (s : State) : runCommand (encode i) s = exec i s := by
  cases h : i.wellFormed with
  | true => exact runCommand_ok (decode_encode h) s
  | false =>
    obtain ⟨r, hr⟩ := decode_encode_error h
    rw [runCommand_error hr, exec_illFormed h]

/-! ### What each kind of host event answers (20_memory.md R61 to R70) -/

theorem hostEvent_cmd (i : Instr) (s : State) : hostEvent (cmd i) s = exec i s := runCommand_encode i s

theorem hostEvent_write {off : Offset} (h : off.toNat % 4 = 0) (v : Word) (s : State) :
    hostEvent (.write .bits32 off v) s = hostWrite off v s := by
  simp only [hostEvent, checkAccess_none.2 ⟨rfl, h⟩]

theorem hostEvent_read {off : Offset} (h : off.toNat % 4 = 0) (s : State) :
    hostEvent (.read .bits32 off) s = .next (s.addReply (s.readOffset off)) := by
  simp only [hostEvent, checkAccess_none.2 ⟨rfl, h⟩, hostRead]

/-- An access that fails the check is refused under the check's name, in either direction. -/
theorem hostEvent_refused {width : AccessWidth} {off : Offset} {r : Refusal} (h : checkAccess width off = some r)
    (v : Word) (s : State) :
    hostEvent (.read width off) s = .refused r ∧ hostEvent (.write width off v) s = .refused r := by
  simp only [hostEvent, h, and_self]

theorem checkAccess_subWord {width : AccessWidth} (h : width = .bits8 ∨ width = .bits16) (off : Offset) :
    checkAccess width off = some .subWordAccess := by
  rcases h with rfl | rfl <;> rfl

theorem checkAccess_misaligned {off : Offset} (h : off.toNat % 4 ≠ 0) :
    checkAccess .bits32 off = some .misalignedAccess := if_neg h

theorem step_write {s : State} {off : Offset} {v : Word} {rest : List HostEvent}
    (hp : s.pending = .write .bits32 off v :: rest) (h : off.toNat % 4 = 0) :
    step s = hostWrite off v (s.setPending rest) := by
  rw [step_cons hp, hostEvent_write h]

/-- A host write never stops, whatever stands at the offset (60_exceptions.md R194). -/
theorem hostWrite_next (off : Offset) (v : Word) (s : State) : ∃ t, hostWrite off v s = .next t := by
  cases hr : regAt off with
  | none => exact ⟨s, hostWrite_reserved hr v s⟩
  | some r =>
    obtain rfl := regAt_eq_some.1 hr
    by_cases hc : r = .cmd
    · subst hc
      rcases runCommand_cases v s with ⟨i, -, hrun⟩ | ⟨x, -, hrun⟩
      · exact (exec_next i s).imp fun t ht => hrun.trans ht
      · exact ⟨_, hrun⟩
    · exact ⟨_, hostWrite_offset hc v s⟩

theorem hostEvent_defined {e : HostEvent} (h : e.defined = true) (s : State) : ∃ t, hostEvent e s = .next t := by
  match e with
  | .reset => exact ⟨_, rfl⟩
  | .read .bits32 off => exact ⟨_, hostEvent_read (of_decide_eq_true h) s⟩
  | .write .bits32 off v =>
    rw [hostEvent_write (of_decide_eq_true h)]
    exact hostWrite_next off v s
  | .read .bits8 _ | .read .bits16 _ | .write .bits8 _ _ | .write .bits16 _ _ => cases h

/-! ### What a command may write (10_state.md R52) -/

/-- From s to t only the registers at the given offsets, and STATUS, may have changed. -/
structure WritesOnly (offs : List Offset) (s t : State) : Prop where
  readReg : ∀ r : Reg, r.offset ∉ offs → r ≠ .status → t.readReg r = s.readReg r
  pending : t.pending = s.pending
  replies : t.replies = s.replies

theorem WritesOnly.trans {offs offs' : List Offset} {s t u : State} (h : WritesOnly offs s t)
    (h' : WritesOnly offs' t u) : WritesOnly (offs ++ offs') s u where
  readReg r hr hst := by
    rw [List.mem_append, not_or] at hr
    rw [h'.readReg r hr.2 hst, h.readReg r hr.1 hst]
  pending := h'.pending.trans h.pending
  replies := h'.replies.trans h.replies

theorem WritesOnly.mono {offs offs' : List Offset} {s t : State} (h : WritesOnly offs s t) (hsub : offs ⊆ offs') :
    WritesOnly offs' s t :=
  ⟨fun r hr => h.readReg r fun hmem => hr (hsub hmem), h.pending, h.replies⟩

theorem writesOnly_setStatus (s : State) (st : Status) : WritesOnly [] s (s.setStatus st) where
  readReg r _ hst := by
    cases r
    case status => exact absurd rfl hst
    all_goals rfl
  pending := rfl
  replies := rfl

theorem WritesOnly.setStatus {offs : List Offset} {s t : State} (h : WritesOnly offs s t) (st : Status) :
    WritesOnly offs s (t.setStatus st) := by
  simpa using h.trans (writesOnly_setStatus t st)

theorem writesOnly_setFrame (s : State) (fr : DWord) : WritesOnly (writes .encElec) s (s.setFrame fr) where
  readReg r hr _ := by
    cases r
    case frameLo | frameHi => exact absurd (by decide) hr
    all_goals rfl
  pending := rfl
  replies := rfl

theorem writesOnly_setResult (s : State) (v : Word) : WritesOnly (writes .pulse2m) s (s.setResult v) where
  readReg r hr _ := by
    cases r
    case result => exact absurd (by decide) hr
    all_goals rfl
  pending := rfl
  replies := rfl

theorem writesOnly_unpackFrame (s : State) (k : Byte) (p : Payload) :
    WritesOnly (writes .dec) s (s.unpackFrame k p) := by
  unfold State.unpackFrame
  split_ifs
  all_goals
    refine ⟨fun r hr hst => ?_, rfl, rfl⟩
    cases r
    case status => exact absurd rfl hst
    case decErrCnt | eTs | eVolt | eCurr | eFaults | eSeq | mTs | mPulses | mSeq | sT0 | sT1 | sT2 =>
      exact absurd (by decide) hr
    all_goals rfl

theorem writesOnly_applyMotion (s : State) : WritesOnly [0x094, 0x098, 0x09C, 0x0BC] s s.applyMotion where
  readReg r hr _ := by
    cases r
    case odoRun | pulseRef | mTsRef | speed => exact absurd (by decide) hr
    all_goals rfl
  pending := rfl
  replies := rfl

theorem writesOnly_recomputeDist (s : State) : WritesOnly (writes .distUpd) s s.recomputeDist where
  readReg r hr _ := by
    cases r
    case dist0 | dist1 | dist2 => exact absurd (by decide) hr
    all_goals rfl
  pending := rfl
  replies := rfl

theorem writesOnly_foldOdometer (s : State) : WritesOnly (writes .odoFold) s s.foldOdometer where
  readReg r hr _ := by
    cases r
    case odoBase | odoRun => exact absurd (by decide) hr
    all_goals rfl
  pending := rfl
  replies := rfl

theorem writesOnly_applyElectric (s : State) : WritesOnly (writes .accElec) s s.applyElectric where
  readReg r hr _ := by
    cases r
    case eTsRef | eaccCLo | eaccCHi | eaccRLo | eaccRHi => exact absurd (by decide) hr
    all_goals rfl
  pending := rfl
  replies := rfl

theorem writesOnly_foldEnergy (s : State) : WritesOnly (writes .eFold) s s.foldEnergy where
  readReg r hr _ := by
    cases r
    case eaccCLo | eaccCHi | eaccRLo | eaccRHi | etotCLo | etotCHi | etotRLo | etotRHi | norm =>
      exact absurd (by decide) hr
    all_goals rfl
  pending := rfl
  replies := rfl

/-- A counter's reset writes its own baseline and distance (41_accumulator.md R156). -/
theorem writesOnly_resetTrip (s : State) (k : Arg) : WritesOnly (writes (.tripReset k)) s (s.resetTrip k.toNat) := by
  have hk {n : Arg} (h : k.toNat = n.toNat) : k = n := BitVec.eq_of_toNat_eq h
  unfold State.resetTrip
  split
  case h_1 h =>
    obtain rfl := hk (n := 0) h
    refine ⟨fun r hr _ => ?_, rfl, rfl⟩
    cases r
    case trip0 | dist0 => exact absurd (by decide) hr
    all_goals rfl
  case h_2 h =>
    obtain rfl := hk (n := 1) h
    refine ⟨fun r hr _ => ?_, rfl, rfl⟩
    cases r
    case trip1 | dist1 => exact absurd (by decide) hr
    all_goals rfl
  case h_3 h =>
    obtain rfl := hk (n := 2) h
    refine ⟨fun r hr _ => ?_, rfl, rfl⟩
    cases r
    case trip2 | dist2 => exact absurd (by decide) hr
    all_goals rfl
  case h_4 => exact ⟨fun _ _ _ => rfl, rfl, rfl⟩


/-- Every command writes only the registers listed for it (10_state.md R52). -/
theorem exec_writesOnly {i : Instr} {s t : State} (h : exec i s = .next t) : WritesOnly (writes i) s t := by
  have status {offs : List Offset} (st : Status) : WritesOnly offs s (s.setStatus st) :=
    (writesOnly_setStatus s st).mono (List.nil_subset _)
  have after {offs : List Offset} {u : State} (st : Status) (hu : WritesOnly offs (s.setStatus st) u) :
      WritesOnly offs s u := (writesOnly_setStatus s st).trans hu
  cases i <;> simp only [exec, execSmEnc, execSmDec, execTripReset, execEFold] at h
  case nop => cases h; exact status _
  case encElec | encSensor => cases h; exact (writesOnly_setFrame s _).setStatus _
  case encMotion => cases h; exact after _ (writesOnly_setFrame _ _)
  case dec => cases h; exact after _ (writesOnly_unpackFrame _ _ _)
  case smEnc =>
    split at h <;> cases h
    · exact (writesOnly_setResult s _).setStatus _
    · exact status _
  case smDec =>
    split at h <;> cases h
    · exact after _ (writesOnly_setResult _ _)
    · exact status _
  case delta13 | delta32 | pulse2m => cases h; exact after _ (writesOnly_setResult _ _)
  case accMotion =>
    cases h
    exact (((writesOnly_applyMotion s).setStatus _).trans (writesOnly_recomputeDist _)).mono (by decide)
  case distUpd => cases h; exact after _ (writesOnly_recomputeDist _)
  case tripReset =>
    split at h <;> cases h
    · exact after _ (writesOnly_resetTrip _ _)
    · exact status _
  case odoFold => cases h; exact after _ (writesOnly_foldOdometer _)
  case accElec => cases h; exact (writesOnly_applyElectric s).setStatus _
  case eFold =>
    split at h <;> cases h
    · exact after _ (writesOnly_foldEnergy _)
    · exact status _

/-! ### The queue and the replies (20_memory.md R70; log entries 1, 2 and 8) -/

/-- The host's side of the bus replaced: the queue and the replies (log entries 1 and 2). -/
def State.setHost (s : State) (q : List HostEvent) (ws : List Word) : State := { s with pending := q, replies := ws }

theorem readReg_setHost (s : State) (q : List HostEvent) (ws : List Word) (r : Reg) :
    (s.setHost q ws).readReg r = s.readReg r := by
  cases r <;> rfl

/-- A host read. -/
def HostEvent.isRead : HostEvent → Bool
  | .read _ _ => true
  | .write _ _ _ | .reset => false

/-- The words an event hands to the host: the word read, or none. -/
def HostEvent.replyIn (s : State) : HostEvent → List Word
  | .read _ off => [s.readOffset off]
  | .write _ _ _ | .reset => []

/-- An event leaves the rest of the queue alone and adds its own reply. -/
theorem hostEvent_host {e : HostEvent} {s t : State} (h : hostEvent e s = .next t) :
    t.pending = s.pending ∧ t.replies = s.replies ++ e.replyIn s := by
  rcases hostEvent_next h with ⟨off, rfl, -, rfl⟩ | ⟨w, i, rfl, -, hx⟩ | ⟨w, x, rfl, -, rfl⟩ | ⟨r, v, -, rfl, rfl⟩ |
    ⟨off, v, -, rfl, rfl⟩ | ⟨rfl, rfl⟩
  · exact ⟨rfl, rfl⟩
  all_goals rw [HostEvent.replyIn, List.append_nil]
  · exact ⟨(exec_writesOnly hx).pending, (exec_writesOnly hx).replies⟩
  · exact ⟨rfl, rfl⟩
  · exact ⟨writeReg_pending s v r, writeReg_replies s v r⟩
  · exact ⟨rfl, rfl⟩
  · exact ⟨rfl, rfl⟩

theorem replyIn_length (s : State) (e : HostEvent) : (e.replyIn s).length = if e.isRead then 1 else 0 := by
  cases e <;> rfl

/-- A queue of defined events runs to its end, with a reply for each read (60_exceptions.md R194). -/
theorem run_pending (q : List HostEvent) (hq : ∀ e ∈ q, e.defined = true) (s : State) (hp : s.pending = q) :
    ∃ t, Sys2Proof.core.run q.length s = .next t ∧ t.pending = [] ∧
      t.replies.length = s.replies.length + (q.filter HostEvent.isRead).length := by
  induction q generalizing s with
  | nil => exact ⟨s, run_zero s, hp, rfl⟩
  | cons e rest ih =>
    obtain ⟨he, hrest⟩ := List.forall_mem_cons.1 hq
    obtain ⟨u, hu⟩ := hostEvent_defined he (s.setPending rest)
    obtain ⟨hpending, hreplies⟩ := hostEvent_host hu
    obtain ⟨t, ht, hend, hlen⟩ := ih hrest u hpending
    refine ⟨t, (run_of_step _ (by rw [step_cons hp, hu])).trans ht, hend, ?_⟩
    rw [hlen, hreplies, List.length_append, replyIn_length, List.filter_cons]
    cases e.isRead
    · rfl
    · simp only [if_true, List.length_cons, State.setPending_replies]
      omega

/-! ### What each command may raise (10_state.md R25 to R27; 60_exceptions.md R181, R184) -/

/-- The transient bits a command leaves, each with its raisers. -/
structure RaisedBy (i : Instr) (st : Status) : Prop where
  kindErr : st.kindErr = true → i = .dec
  sat : st.sat = true → i = .encElec ∨ i = .encSensor ∨ ∃ n, i = .smEnc n
  cmdErr : st.cmdErr = true → i.wellFormed = false
  foldSkip : st.foldSkip = true → i = .eFold

theorem raisedBy_clearTransient (i : Instr) (st : Status) : RaisedBy i st.clearTransient := by
  constructor <;> simp

/-- A legal command raises no CMD_ERR, KIND_ERR only as DEC, FOLD_SKIP only as E_FOLD, SAT only as an encoder. -/
theorem exec_raisedBy {i : Instr} {s t : State} (hwf : i.wellFormed = true) (h : exec i s = .next t) :
    RaisedBy i t.status := by
  cases i
  case dec =>
    cases h
    rw [unpackFrame_status]
    constructor <;> split <;> simp
  case encElec | encSensor => cases h; constructor <;> simp
  case smEnc =>
    cases (exec_smEnc hwf s).symm.trans h
    constructor <;> simp [quiet]
  case smDec => cases (exec_smDec hwf s).symm.trans h; exact raisedBy_clearTransient _ s.status
  case tripReset =>
    cases (if_pos hwf).symm.trans h
    rw [(resetTrip_kept _ _).1]
    exact raisedBy_clearTransient _ s.status
  case eFold =>
    simp only [exec, execEFold] at h
    split at h <;> cases h <;> constructor <;> simp
  all_goals cases h; constructor <;> simp

theorem toNat_add_toNat_le_one {a b : Bool} (h : a = true → b ≠ true) : a.toNat + b.toNat ≤ 1 := by
  revert h
  cases a <;> cases b <;> decide

theorem RaisedBy.cmdErr_eq_false {i : Instr} {st : Status} (h : RaisedBy i st) (hwf : i.wellFormed = true) :
    st.cmdErr = false :=
  Bool.eq_false_iff.2 fun hc => by simp [h.cmdErr hc] at hwf

/-- No command raises two bits: no two of them share a raiser. -/
theorem RaisedBy.transientCount_le_one {i : Instr} {st : Status} (h : RaisedBy i st) (hwf : i.wellFormed = true) :
    st.transientCount ≤ 1 := by
  have hkind_sat : st.kindErr.toNat + st.sat.toNat ≤ 1 :=
    toNat_add_toNat_le_one fun hk hs => by simpa [h.kindErr hk] using h.sat hs
  have hkind_skip : st.kindErr.toNat + st.foldSkip.toNat ≤ 1 :=
    toNat_add_toNat_le_one fun hk hf => by simpa [h.kindErr hk] using h.foldSkip hf
  have hsat_skip : st.sat.toNat + st.foldSkip.toNat ≤ 1 :=
    toNat_add_toNat_le_one fun hs hf => by simpa [h.foldSkip hf] using h.sat hs
  rw [Status.transientCount, h.cmdErr_eq_false hwf, Bool.toNat_false]
  omega

/-! ### MREF and EREF (10_state.md R27) -/

/-- An event that is no reset keeps MREF unless it is ACC_MOTION's write, and EREF unless it is ACC_ELEC's. -/
theorem hostEvent_references_kept {e : HostEvent} {s t : State} (h : hostEvent e s = .next t) (hr : e ≠ .reset) :
    (¬ writesCmd e (encode .accMotion) → t.status.mref = s.status.mref) ∧
      (¬ writesCmd e (encode .accElec) → t.status.eref = s.status.eref) := by
  rcases hostEvent_next h with ⟨off, -, -, rfl⟩ | ⟨w, i, rfl, hd, hx⟩ | ⟨w, x, -, -, rfl⟩ | ⟨r, v, -, -, rfl⟩ |
    ⟨off, v, -, -, rfl⟩ | ⟨rfl, -⟩
  · exact ⟨fun _ => rfl, fun _ => rfl⟩
  · have hne {j : Instr} (hw : ¬ writesCmd (.write .bits32 0x000 w) (encode j)) : i ≠ j := by
      rintro rfl
      exact hw (by rw [encode_of_decode hd]; rfl)
    have hk := exec_keeps hx
    exact ⟨fun hw => by simp [hk.mref, hne hw], fun hw => by simp [hk.eref, hne hw]⟩
  · exact ⟨fun _ => rfl, fun _ => rfl⟩
  · simp
  · exact ⟨fun _ => rfl, fun _ => rfl⟩
  · exact absurd rfl hr

/-- The write of a command's word runs the command. -/
theorem exec_of_writesCmd {e : HostEvent} {i : Instr} {s t : State} (hw : writesCmd e (encode i))
    (h : hostEvent e s = .next t) : exec i s = .next t := by
  rw [writesCmd] at hw
  rw [← h, hw]
  exact (hostEvent_cmd i s).symm

/-! ### The invariant of the block (10_state.md R25 to R27, R36) -/

/-- KIND_ERR beside an unrecognized LAST_KIND only, and at most one transient bit. -/
structure Status.Consistent (st : Status) : Prop where
  one_transient : st.transientCount ≤ 1
  kind_err : st.kindErr = true → recognizedKind st.lastKind = false

theorem exec_consistent {i : Instr} {s t : State} (hwf : i.wellFormed = true) (h : exec i s = .next t) :
    t.status.Consistent where
  one_transient := (exec_raisedBy hwf h).transientCount_le_one hwf
  kind_err hk := by
    obtain rfl := (exec_raisedBy hwf h).kindErr hk
    obtain ⟨hkind, herr⟩ := execDec_status h
    rw [hkind]
    simpa [hk] using herr

theorem consistent_illegal (st : Status) : st.clearTransient.flagCmdErr.Consistent :=
  ⟨Nat.le_refl 1, nofun⟩

/-- Only commands and reset write STATUS, and each leaves it consistent. -/
theorem hostEvent_consistent {e : HostEvent} {s t : State} (hs : s.status.Consistent) (h : hostEvent e s = .next t) :
    t.status.Consistent := by
  rcases hostEvent_next h with ⟨off, -, -, rfl⟩ | ⟨w, i, -, hd, hx⟩ | ⟨w, x, -, -, rfl⟩ | ⟨r, v, -, -, rfl⟩ |
    ⟨off, v, -, -, rfl⟩ | ⟨-, rfl⟩
  · exact hs
  · exact exec_consistent ((decode_eq_ok_iff w i).1 hd).2.2.2 hx
  · exact consistent_illegal _
  · rwa [writeReg_status]
  · exact hs
  · exact ⟨Nat.zero_le 1, nofun⟩

/-- The registers of a Motion sample's reference, count and speed (41_accumulator.md R150). -/
def motionRegs : List Reg := [.odoRun, .pulseRef, .mTsRef, .speed]

/-- The registers of an Electric sample's reference and energy (41_accumulator.md R160). -/
def electricRegs : List Reg := [.eTsRef, .eaccCLo, .eaccCHi, .eaccRLo, .eaccRHi]

/-- The given registers read 0. -/
def State.zeroAt (s : State) (rs : List Reg) : Prop := ∀ r ∈ rs, s.readReg r = 0

theorem setWidth_eq_zero_iff {w : Nat} (h : w ≤ 32) (x : BitVec w) : x.setWidth 32 = 0 ↔ x = 0 := by
  rw [← BitVec.toNat_inj, ← BitVec.toNat_inj, BitVec.toNat_setWidth_of_le h]
  rfl

theorem halves_eq_zero_iff (v : DWord) : lo32 v = 0 ∧ hi32 v = 0 ↔ v = 0 := by
  constructor
  · rintro ⟨hlo, hhi⟩
    rw [← hi32_append_lo32 v, hlo, hhi]
    rfl
  · rintro rfl
    exact ⟨rfl, rfl⟩

theorem zeroAt_motionRegs (s : State) :
    s.zeroAt motionRegs ↔ s.odoRun = 0 ∧ s.pulseRef = 0 ∧ s.mTsRef = 0 ∧ s.speed = 0 := by
  simp only [State.zeroAt, motionRegs, List.forall_mem_cons, List.not_mem_nil, false_implies, implies_true,
    and_true, State.readReg,
    setWidth_eq_zero_iff (w := 13) (by decide)]

theorem zeroAt_electricRegs (s : State) :
    s.zeroAt electricRegs ↔ s.eTsRef = 0 ∧ s.eaccC = 0 ∧ s.eaccR = 0 := by
  simp only [State.zeroAt, electricRegs, List.forall_mem_cons, List.not_mem_nil, false_implies, implies_true,
    and_true, State.readReg,
    setWidth_eq_zero_iff (w := 13) (by decide), ← halves_eq_zero_iff, and_assoc]

/-- Registers a command is not listed for stay 0. -/
theorem State.zeroAt.of_writesOnly {offs : List Offset} {rs : List Reg} {s t : State} (hs : s.zeroAt rs)
    (h : WritesOnly offs s t) (hrs : ∀ r ∈ rs, r.offset ∉ offs ∧ r ≠ .status) : t.zeroAt rs := fun r hr =>
  (h.readReg r (hrs r hr).1 (hrs r hr).2).trans (hs r hr)

/-- Before the first Motion sample no command counts: ODO_FOLD writes 0, the others leave the registers alone. -/
theorem exec_zeroAt_motionRegs {i : Instr} {s t : State} (hi : i ≠ .accMotion) (hs : s.zeroAt motionRegs)
    (h : exec i s = .next t) : t.zeroAt motionRegs := by
  cases i
  case accMotion => exact absurd rfl hi
  case odoFold =>
    cases h
    obtain ⟨-, hrest⟩ := (zeroAt_motionRegs s).1 hs
    exact (zeroAt_motionRegs _).2 ⟨rfl, hrest⟩
  case tripReset k =>
    refine hs.of_writesOnly (exec_writesOnly h) ?_
    simp only [writes]
    split_ifs <;> decide
  all_goals exact hs.of_writesOnly (exec_writesOnly h) (by simp only [writes]; decide)

/-- Before the first Electric sample no command integrates: a folding E_FOLD writes 0, the others leave the registers
alone. -/
theorem exec_zeroAt_electricRegs {i : Instr} {s t : State} (hi : i ≠ .accElec) (hs : s.zeroAt electricRegs)
    (h : exec i s = .next t) : t.zeroAt electricRegs := by
  cases i
  case accElec => exact absurd rfl hi
  case eFold =>
    obtain ⟨href, -⟩ := (zeroAt_electricRegs s).1 hs
    simp only [exec, execEFold] at h
    split at h <;> cases h
    · exact (zeroAt_electricRegs _).2 ⟨href, rfl, rfl⟩
    · exact hs.of_writesOnly (writesOnly_setStatus s _) (by decide)
  case tripReset k =>
    refine hs.of_writesOnly (exec_writesOnly h) ?_
    simp only [writes]
    split_ifs <;> decide
  all_goals exact hs.of_writesOnly (exec_writesOnly h) (by simp only [writes]; decide)

/-- A host write leaves the registers that are not RW alone (10_state.md R49). -/
theorem readReg_writeReg_of_not_rw {r : Reg} (h : r.access ≠ .rw) (s : State) (v : Word) (r' : Reg) :
    (s.writeReg v r').readReg r = s.readReg r := by
  by_cases hr : r = r'
  · rw [← hr, writeReg_of_not_rw h]
  · exact readReg_writeReg_other hr s v

/-- Read-only registers that only the sample's command can raise from 0 stay 0 through every other event. -/
theorem hostEvent_zeroAt {rs : List Reg} {sample : Instr} {e : HostEvent} {s t : State}
    (hro : ∀ r ∈ rs, r.access = .ro ∧ r ≠ .status)
    (hexec : ∀ {i}, i ≠ sample → s.zeroAt rs → exec i s = .next t → t.zeroAt rs) (hs : s.zeroAt rs)
    (hw : ¬ writesCmd e (encode sample)) (hr : e ≠ .reset) (h : hostEvent e s = .next t) : t.zeroAt rs := by
  rcases hostEvent_next h with ⟨off, -, -, rfl⟩ | ⟨w, i, rfl, hd, hx⟩ | ⟨w, x, -, -, rfl⟩ | ⟨r', v, -, -, rfl⟩ |
    ⟨off, v, -, -, rfl⟩ | ⟨rfl, -⟩
  · exact fun r hr => (readReg_setHost s _ _ r).trans (hs r hr)
  · refine hexec ?_ hs hx
    rintro rfl
    exact hw (by rw [encode_of_decode hd]; rfl)
  · exact hs.of_writesOnly (writesOnly_setStatus s _) fun r hr => ⟨List.not_mem_nil, (hro r hr).2⟩
  · exact fun r hr => (readReg_writeReg_of_not_rw (by simp [hro r hr]) s v r').trans (hs r hr)
  · exact hs
  · exact absurd rfl hr

theorem one_le_toNat_iff (x : BitVec 16) : 1 ≤ x.toNat ↔ x.setWidth 32 ≠ 0 := by
  rw [Ne, setWidth_eq_zero_iff (by decide), ← BitVec.toNat_inj, Nat.one_le_iff_ne_zero]
  rfl

/-- No step takes PPR or MMPR below 1 (10_state.md R36). -/
theorem step_one_le {s t : State} (h : step s = .next t) :
    (1 ≤ s.ppr.toNat → 1 ≤ t.ppr.toNat) ∧ (1 ≤ s.mmpr.toNat → 1 ≤ t.mmpr.toNat) := by
  simp only [one_le_toNat_iff]
  exact ⟨Reg.warl.step_ne_zero (.inl rfl) h, Reg.warl.step_ne_zero (.inr rfl) h⟩

/-- MREF still clear after an event: nothing has been counted. -/
theorem hostEvent_no_motion {e : HostEvent} {s t : State} (hs : s.status.mref = false → s.zeroAt motionRegs)
    (hr : e ≠ .reset) (h : hostEvent e s = .next t) (ht : t.status.mref = false) : t.zeroAt motionRegs := by
  have hw : ¬ writesCmd e (encode .accMotion) := fun hw => by
    simp [(exec_keeps (exec_of_writesCmd hw h)).mref] at ht
  have hmref : s.status.mref = false := ((hostEvent_references_kept h hr).1 hw).symm.trans ht
  exact hostEvent_zeroAt (by decide) exec_zeroAt_motionRegs (hs hmref) hw hr h

/-- EREF still clear after an event: nothing has been integrated. -/
theorem hostEvent_no_electric {e : HostEvent} {s t : State} (hs : s.status.eref = false → s.zeroAt electricRegs)
    (hr : e ≠ .reset) (h : hostEvent e s = .next t) (ht : t.status.eref = false) : t.zeroAt electricRegs := by
  have hw : ¬ writesCmd e (encode .accElec) := fun hw => by
    simp [(exec_keeps (exec_of_writesCmd hw h)).eref] at ht
  have heref : s.status.eref = false := ((hostEvent_references_kept h hr).2 hw).symm.trans ht
  exact hostEvent_zeroAt (by decide) exec_zeroAt_electricRegs (hs heref) hw hr h

theorem resetBlock_inv (s : State) : s.resetBlock.Inv :=
  ⟨Nat.le_refl 1, Nat.le_refl 1, Nat.zero_le 1, nofun, fun _ => ⟨rfl, rfl, rfl, rfl⟩, fun _ => ⟨rfl, rfl, rfl⟩⟩

/-- Every step keeps the invariant: each of its parts is kept by every event but reset, which establishes it. -/
theorem step_inv {s t : State} (hs : s.Inv) (h : step s = .next t) : t.Inv := by
  rcases step_next h with ⟨-, rfl⟩ | ⟨e, rest, -, he⟩
  · exact hs
  by_cases hr : e = .reset
  · subst hr
    cases he
    exact resetBlock_inv _
  obtain ⟨hppr, hmmpr⟩ := step_one_le h
  obtain ⟨hone, hkind⟩ := hostEvent_consistent (s := s.setPending rest) ⟨hs.one_transient, hs.kind_err⟩ he
  have hmotion := hostEvent_no_motion (s := s.setPending rest)
    (fun h0 => (zeroAt_motionRegs _).2 (hs.no_motion h0)) hr he
  have helectric := hostEvent_no_electric (s := s.setPending rest)
    (fun h0 => (zeroAt_electricRegs _).2 (hs.no_electric h0)) hr he
  exact ⟨hppr hs.ppr_nonzero, hmmpr hs.mmpr_nonzero, hone, hkind, fun h0 => (zeroAt_motionRegs t).1 (hmotion h0),
    fun h0 => (zeroAt_electricRegs t).1 (helectric h0)⟩

/-! ### The frame round trips (40_codec.md R113 to R123) -/

/-- DEC of a frame put together from a payload and a kind unpacks that payload. -/
theorem exec_dec_frameOf {s : State} {p : Payload} {k : Byte} (h : s.frame = frameOf p k) :
    exec .dec s = .next ((s.setStatus (s.status.clearTransient.setLastKind k)).unpackFrame k p) := by
  rw [exec_dec (by rw [h, frameKind_frameOf]), h, framePayload_frameOf]

section
variable (ts : BitVec 13) (volt : BitVec 10) (cur : BitVec 14) (faults : BitVec 11) (seq : BitVec 8)

theorem ext_packElectric :
    ext (packElectric ts volt cur faults seq) 0 13 = ts ∧ ext (packElectric ts volt cur faults seq) 13 10 = volt ∧
      ext (packElectric ts volt cur faults seq) 23 14 = cur ∧
      ext (packElectric ts volt cur faults seq) 37 11 = faults ∧
      ext (packElectric ts volt cur faults seq) 48 8 = seq := by
  simp (disch := decide) only [packElectric, ext_ins_same, ext_ins_disjoint, and_self]

theorem ext_packMotion (pulses : Word) :
    ext (packMotion ts pulses seq) 0 13 = ts ∧ ext (packMotion ts pulses seq) 13 32 = pulses ∧
      ext (packMotion ts pulses seq) 45 8 = seq := by
  simp (disch := decide) only [packMotion, ext_ins_same, ext_ins_disjoint, and_self]

end

theorem ext_packSensor (t0 t1 t2 : BitVec 9) :
    ext (packSensor t0 t1 t2) 0 9 = t0 ∧ ext (packSensor t0 t1 t2) 9 9 = t1 ∧ ext (packSensor t0 t1 t2) 18 9 = t2 := by
  simp (disch := decide) only [packSensor, ext_ins_same, ext_ins_disjoint, and_self]

/-- A register reduced to w bits by an encoder and widened again by DEC. -/
theorem setWidth_setWidth_toNat (v : Word) {w : Nat} (h : w ≤ 32) :
    ((v.setWidth w).setWidth 32).toNat = v.toNat % 2 ^ w := by
  rw [BitVec.toNat_setWidth_of_le h, BitVec.toNat_setWidth]

/-- A signed register that an encoder saturates to a field comes back clamped (40_codec.md R110, R112). -/
theorem smValue_smField_clamp (v : Word) :
    (smValue (smField 14 v)).toInt = max (-8191) (min 8191 v.toInt) ∧
      (smValue (smField 9 v)).toInt = max (-255) (min 255 v.toInt) :=
  ⟨smValue_smField_toInt (by decide) (by decide) v, smValue_smField_toInt (by decide) (by decide) v⟩

/-! ### Runs of reads and of writes (70_reset_and_hazards.md R205, R207) -/

/-- A queue of reads hands over the registers in order and changes none of them (20_memory.md R65). -/
theorem run_reads (rs : List Reg) (s : State) (ws : List Word) :
    Sys2Proof.core.run rs.length (s.setHost (rs.map rd) ws) = .next (s.setHost [] (ws ++ rs.map s.readReg)) := by
  induction rs generalizing ws with
  | nil => exact congrArg (Host.Outcome.next ∘ s.setHost []) (List.append_nil ws).symm
  | cons r rest ih =>
    have happend : ws ++ [s.readReg r] ++ rest.map s.readReg = ws ++ (r :: rest).map s.readReg :=
      (List.append_cons ..).symm
    refine (run_rd _ _ rfl).trans ?_
    rw [readReg_setHost]
    exact (ih (ws ++ [s.readReg r])).trans (congrArg (Host.Outcome.next ∘ s.setHost []) happend)

/-- The registers after a list of stores, in order. -/
def State.writeRegs (s : State) (ws : List (Reg × Int)) : State :=
  ws.foldl (fun s w => s.writeReg (u32 w.2) w.1) s

theorem writeReg_setPending (s : State) (v : Word) (r : Reg) (q : List HostEvent) :
    (s.setPending q).writeReg v r = (s.writeReg v r).setPending q := by
  cases r <;> rfl

/-- A queue that begins with writes performs them in order (20_memory.md R70). -/
theorem run_writes (ws : List (Reg × Int)) (hws : ∀ w ∈ ws, w.1 ≠ .cmd) (k : Nat) (s : State) (rest : List HostEvent) :
    Sys2Proof.core.run (ws.length + k) (s.setPending (ws.map (fun w => wr w.1 w.2) ++ rest)) =
      Sys2Proof.core.run k ((s.writeRegs ws).setPending rest) := by
  induction ws generalizing s with
  | nil => rw [List.length_nil, Nat.zero_add]; rfl
  | cons w ws ih =>
    obtain ⟨hw, hws⟩ := List.forall_mem_cons.1 hws
    rw [List.length_cons, Nat.add_right_comm]
    refine (run_wr _ _ rfl hw).trans ?_
    rw [writeReg_setPending, writeReg_setPending]
    exact ih hws (s.writeReg (u32 w.2) w.1)

/-- The registers the save sequence reads (70_reset_and_hazards.md R207). -/
def savedRegs : List Reg := [.odoBase, .trip0, .trip1, .trip2, .etotCLo, .etotCHi, .etotRLo, .etotRHi]

/-- The save sequence folds the odometer and hands over its saved registers. -/
theorem run_saveProgram (s : State) :
    Sys2Proof.core.run 9 (s.setHost saveProgram []) =
      .next (s.beginCommand.foldOdometer.setHost [] (savedRegs.map s.beginCommand.foldOdometer.readReg)) := by
  have hfold : Sys2Proof.core.run 9 (s.setHost saveProgram []) =
      Sys2Proof.core.run 8 (s.beginCommand.foldOdometer.setHost (savedRegs.map rd) []) :=
    run_command 8 _ (i := .odoFold) rfl (decode_encode rfl) rfl
  exact hfold.trans (run_reads savedRegs s.beginCommand.foldOdometer [])

/-- The boot sequence with the configuration and the saved registers of f (70_reset_and_hazards.md R205). -/
def bootProgramOf (f : State) : List HostEvent :=
  bootProgram f.ppr.toNat f.mmpr.toNat f.currInv.toNat f.minTravelM.toNat f.odoBase.toNat f.trip0.toNat f.trip1.toNat
    f.trip2.toNat f.etotC f.etotR

/-- The stores of that boot sequence. -/
def bootWritesOf (f : State) : List (Reg × Int) :=
  [(.ppr, f.ppr.toNat), (.mmpr, f.mmpr.toNat), (.cfg, f.currInv.toNat), (.minTravelM, f.minTravelM.toNat),
   (.odoBase, f.odoBase.toNat), (.trip0, f.trip0.toNat), (.trip1, f.trip1.toNat), (.trip2, f.trip2.toNat),
   (.etotCLo, (lo32 f.etotC).toNat), (.etotCHi, (hi32 f.etotC).toNat),
   (.etotRLo, (lo32 f.etotR).toNat), (.etotRHi, (hi32 f.etotR).toNat)]

/-- The registers after a reset and the stores of the boot sequence. -/
def State.rebooted (t f : State) : State := (t.resetBlock.writeRegs (bootWritesOf f)).setPending []

theorem run_distUpd (s : State) : Sys2Proof.core.run 1 (s.setPending [cmd .distUpd]) =
    .next (s.setPending []).beginCommand.recomputeDist :=
  run_command 0 _ (i := .distUpd) rfl (decode_encode rfl) rfl

/-- A reset and the boot sequence restore the registers and recompute the distances. -/
theorem run_bootProgramOf (t f : State) :
    Sys2Proof.core.run 14 { t with pending := .reset :: bootProgramOf f } =
      .next (t.rebooted f).beginCommand.recomputeDist := by
  have hreset : Sys2Proof.core.run 14 { t with pending := .reset :: bootProgramOf f } =
      Sys2Proof.core.run 13 (t.resetBlock.setPending (bootProgramOf f)) := run_reset 13 _ rfl
  have hwrites : Sys2Proof.core.run 13 (t.resetBlock.setPending (bootProgramOf f)) =
      Sys2Proof.core.run 1 ((t.resetBlock.writeRegs (bootWritesOf f)).setPending [cmd .distUpd]) :=
    run_writes (bootWritesOf f) (by simp [bootWritesOf]) 1 t.resetBlock [cmd .distUpd]
  rw [hreset, hwrites]
  exact run_distUpd (t.resetBlock.writeRegs (bootWritesOf f))

/-- What a reboot restores of a state whose odometer has been folded: all that the distances and the energy totals
depend on. -/
theorem rebooted_restores (t : State) {f : State} (hrun : f.odoRun = 0) (hppr : 1 ≤ f.ppr.toNat)
    (hmmpr : 1 ≤ f.mmpr.toNat) :
    (t.rebooted f).pending = [] ∧ (t.rebooted f).total = f.total ∧
      (t.rebooted f).ppr = f.ppr ∧ (t.rebooted f).mmpr = f.mmpr ∧
      (t.rebooted f).trip0 = f.trip0 ∧ (t.rebooted f).trip1 = f.trip1 ∧ (t.rebooted f).trip2 = f.trip2 ∧
      (t.rebooted f).etotC = f.etotC ∧ (t.rebooted f).etotR = f.etotR := by
  have hpair (v : DWord) : u32 ((hi32 v).toNat : Int) ++ lo32 (hi32 0#64 ++ u32 ((lo32 v).toNat : Int)) = v := by
    simp only [u32_toNat, lo32_append, hi32_append_lo32]
  refine ⟨rfl, ?_, warl16_u32 hppr _, warl16_u32 hmmpr _, u32_toNat f.trip0, u32_toNat f.trip1,
    u32_toNat f.trip2, hpair f.etotC, hpair f.etotR⟩
  rw [State.total, State.total, hrun]
  exact congrArg (· + 0) (u32_toNat f.odoBase)

/-! ### The registers a host write stores to (10_state.md R22, R29, R35) -/

/-- The full-width offsets are those of the RW registers that are not narrow. -/
theorem mem_fullWidth {off : Offset} :
    off ∈ fullWidth ↔ ∃ r : Reg, (r.access = .rw ∧ r ≠ .cfg ∧ r ≠ .ppr ∧ r ≠ .mmpr) ∧ r.offset = off := by
  have h : fullWidth =
      (Reg.all.filter fun r => r.access = .rw ∧ r ≠ .cfg ∧ r ≠ .ppr ∧ r ≠ .mmpr).map Reg.offset := by decide
  simp [h]

theorem lo32_add_hi32 (v : DWord) : (lo32 v).toNat + 2 ^ 32 * (hi32 v).toNat = v.toNat := by
  rw [lo32_toNat, hi32_toNat]
  omega

theorem setWidth_ofBool_toNat (b : Bool) : ((BitVec.ofBool b).setWidth 32).toNat = b.toNat := by
  rw [BitVec.toNat_setWidth_of_le (by decide), BitVec.toNat_ofBool]

theorem getLsbD_zero_toNat (v : Word) : (v.getLsbD 0).toNat = v.toNat % 2 := by
  rw [BitVec.getLsbD, Nat.testBit_zero]
  rcases Nat.mod_two_eq_zero_or_one v.toNat with h | h <;> simp [h]

/-! ### The statements -/

/-- Settles O2: the fields of the encoded word are the command's, so the check of R83 alone decides. -/
theorem decodeEncodeRoundTrip : Obligations.DecodeEncodeRoundTrip := by
  unfold Obligations.DecodeEncodeRoundTrip
  exact fun i => ⟨wellFormed_of_decode_encode, decode_encode⟩

/-- Settles O59: each part of the invariant is kept by every event but reset, which establishes it. -/
theorem stepKeepsTheInvariant : Obligations.StepKeepsTheInvariant := by
  unfold Obligations.StepKeepsTheInvariant
  exact fun s t => step_inv

/-- Settles O3, by `encode_of_decode`. -/
theorem decodedWordIsItsEncoding : Obligations.DecodedWordIsItsEncoding := by
  unfold Obligations.DecodedWordIsItsEncoding
  exact fun w i h => ⟨encode_of_decode h, ((decode_eq_ok_iff w i).1 h).2.2.2⟩

/-- Settles O7: a well-formed term's word decodes to it, an ill-formed term acts as the illegal word it encodes to. -/
theorem execIsTheWriteOfTheEncodedWord : Obligations.ExecIsTheWriteOfTheEncodedWord := by
  unfold Obligations.ExecIsTheWriteOfTheEncodedWord
  exact runCommand_encode

/-- Settles O8, by what an event does to the host's side of the bus. -/
theorem stepTakesOneEventInOrder : Obligations.StepTakesOneEventInOrder := by
  unfold Obligations.StepTakesOneEventInOrder
  intro s t e rest hp ht
  rw [step_cons hp] at ht
  obtain ⟨hpending, hreplies⟩ := hostEvent_host ht
  refine ⟨hpending, ?_⟩
  cases e with
  | read width off =>
    obtain ⟨off', he, -⟩ : ∃ off', HostEvent.read width off = .read .bits32 off' ∧ off'.toNat % 4 = 0 ∧
        t = (s.setPending rest).addReply ((s.setPending rest).readOffset off') := by
      simpa using hostEvent_next ht
    rw [HostEvent.replyIn, readOffset_setPending] at hreplies
    cases he
    exact .inl ⟨off, rfl, hreplies⟩
  | write width off v => exact .inr ⟨nofun, hreplies.trans (List.append_nil _)⟩
  | reset => exact .inr ⟨nofun, hreplies.trans (List.append_nil _)⟩

/-- Settles O9: the word as a sum of its fields. -/
theorem statusWordLayout : Obligations.StatusWordLayout := by
  unfold Obligations.StatusWordLayout
  exact fun s => s.status.word_toNat

/-- Settles O12: the samples' commands set their bits, every other event keeps them. -/
theorem referenceBitsOnlySetBySamples : Obligations.ReferenceBitsOnlySetBySamples := by
  unfold Obligations.ReferenceBitsOnlySetBySamples
  intro s t e rest hp ht hr
  rw [step_cons hp] at ht
  obtain ⟨hmref, heref⟩ := hostEvent_references_kept ht hr
  refine ⟨fun hw => ?_, hmref, fun hw => ?_, heref⟩
  · simp [(exec_keeps (exec_of_writesCmd (i := .accMotion) hw ht)).mref]
  · simp [(exec_keeps (exec_of_writesCmd (i := .accElec) hw ht)).eref]

/-- Settles O13: no two transient bits share a raiser. -/
theorem oneOutcomePerCommand : Obligations.OneOutcomePerCommand := by
  unfold Obligations.OneOutcomePerCommand
  intro i s t hwf ht
  have hraised := exec_raisedBy hwf ht
  exact ⟨hraised.transientCount_le_one hwf, hraised.cmdErr_eq_false hwf, hraised.kindErr, hraised.sat,
    hraised.foldSkip⟩

/-- Settles O14, register by register; a narrow register is zero-extended and a pair is its two halves. -/
theorem readsShowTheRegisterMap : Obligations.ReadsShowTheRegisterMap := by
  unfold Obligations.ReadsShowTheRegisterMap
  intro s
  have narrow {w : Nat} (h : w ≤ 32) (x : BitVec w) : (x.setWidth 32).toNat = x.toNat := BitVec.toNat_setWidth_of_le h
  have reads (r : Reg) : s.readOffset r.offset = s.readReg r := readOffset_offset s r
  exact ⟨reads .cmd, reads .decErrCnt, setWidth_ofBool_toNat s.currInv, reads .frameLo, reads .frameHi, reads .argA,
    reads .argB, reads .result, reads .eTs, reads .eVolt, reads .eCurr, reads .eFaults, reads .eSeq, reads .mTs,
    reads .mPulses, reads .mSeq, reads .sT0, reads .sT1, reads .sT2, narrow (by decide) s.ppr,
    narrow (by decide) s.mmpr, reads .minTravelM, reads .odoBase, reads .odoRun, reads .pulseRef,
    narrow (by decide) s.mTsRef, reads .trip0, reads .trip1, reads .trip2, reads .dist0, reads .dist1, reads .dist2,
    reads .speed, narrow (by decide) s.eTsRef, lo32_add_hi32 s.eaccC, lo32_add_hi32 s.eaccR, lo32_add_hi32 s.etotC,
    lo32_add_hi32 s.etotR, reads .norm⟩

/-- Settles O19: the write stores to its own register alone. -/
theorem hostWriteReadsBackAndFrames : Obligations.HostWriteReadsBackAndFrames := by
  unfold Obligations.HostWriteReadsBackAndFrames
  intro s off v rest hoff hp
  obtain ⟨r, ⟨hrw, hcfg, hppr, hmmpr⟩, rfl⟩ := mem_fullWidth.1 hoff
  have hcmd : r ≠ .cmd := by rintro rfl; cases hrw
  refine ⟨(s.setPending rest).writeReg v r, ?_, ?_, fun off' h => ?_, writeReg_pending _ v r, writeReg_replies _ v r⟩
  · rw [step_write hp (offset_aligned r), hostWrite_offset hcmd]
  · rw [readOffset_offset, readReg_writeReg_same hrw hcfg hppr hmmpr]
  · rw [readOffset_writeReg_other h, readOffset_setPending]

/-- Settles O21: CFG is one bit of storage. -/
theorem cfgKeepsOnlyBitZero : Obligations.CfgKeepsOnlyBitZero := by
  unfold Obligations.CfgKeepsOnlyBitZero
  intro s v
  refine ⟨s.writeReg v .cfg, hostWrite_offset (r := .cfg) (by decide) v s, ?_,
    fun off h => readOffset_writeReg_other (r := .cfg) h s v, writeReg_pending s v .cfg, writeReg_replies s v .cfg⟩
  rw [← getLsbD_zero_toNat]
  exact setWidth_ofBool_toNat (v.getLsbD 0)

/-- Settles O23, by the kinds of defined event. -/
theorem everyDefinedEventCompletes : Obligations.EveryDefinedEventCompletes := by
  unfold Obligations.EveryDefinedEventCompletes
  refine ⟨fun s e rest hp he => ?_, fun s => step_nil⟩
  rw [step_cons hp]
  exact hostEvent_defined he _

/-- Settles O24, by induction on the queue. -/
theorem safeQueueRunsToItsEnd : Obligations.SafeQueueRunsToItsEnd := by
  unfold Obligations.SafeQueueRunsToItsEnd
  intro s hs
  have hisRead : HostEvent.isRead = fun e => match e with | .read _ _ => true | _ => false := by
    funext e
    cases e <;> rfl
  have hrun := run_pending s.pending hs s rfl
  rw [hisRead] at hrun
  exact hrun

/-- Settles O25: `exec_writesOnly`, at every offset. -/
theorem commandsWriteOnlyTheirRegisters : Obligations.CommandsWriteOnlyTheirRegisters := by
  unfold Obligations.CommandsWriteOnlyTheirRegisters
  intro i s t ht
  obtain ⟨hread, hpending, hreplies⟩ := exec_writesOnly ht
  refine ⟨fun off hoff hst => readOffset_congr fun r hr => hread r (hr ▸ hoff) ?_, hpending, hreplies⟩
  rintro rfl
  exact hst hr.symm

/-- Settles O38: each field of the packed payload comes back, as reduced. -/
theorem electricFrameRoundTrip : Obligations.ElectricFrameRoundTrip := by
  unfold Obligations.ElectricFrameRoundTrip
  intro s
  obtain ⟨hts, hvolt, hcur, hfaults, hseq⟩ := ext_packElectric (s.eTs.setWidth 13) (voltField s.eVolt)
    (smField 14 s.eCurr) (s.eFaults.extractLsb' 0 11) (s.eSeq.setWidth 8)
  refine ⟨_, _, rfl, exec_dec_frameOf (frame_setFrame s _), ?_⟩
  simp only [unpackFrame_electric, State.unpackElectric, hts, hvolt, hcur, hfaults, hseq]
  refine ⟨setWidth_setWidth_toNat _ (by decide), ?_, (smValue_smField_clamp _).1, ?_,
    setWidth_setWidth_toNat _ (by decide), rfl⟩
  · rw [BitVec.toNat_setWidth_of_le (by decide), voltField_toNat]
  · rw [BitVec.toNat_setWidth_of_le (by decide), BitVec.extractLsb'_toNat, Nat.shiftRight_zero]

/-- Settles O39: each field of the packed payload comes back, as reduced. -/
theorem motionAndSensorFrameRoundTrip : Obligations.MotionAndSensorFrameRoundTrip := by
  unfold Obligations.MotionAndSensorFrameRoundTrip
  refine ⟨fun s => ?_, fun s => ?_⟩
  · obtain ⟨hts, hpulses, hseq⟩ := ext_packMotion (s.mTs.setWidth 13) (s.mSeq.setWidth 8) s.mPulses
    refine ⟨_, _, rfl, exec_dec_frameOf (frame_setFrame s.beginCommand _), ?_⟩
    simp only [unpackFrame_motion, State.unpackMotion, hts, hpulses, hseq]
    exact ⟨setWidth_setWidth_toNat _ (by decide), trivial, setWidth_setWidth_toNat _ (by decide), rfl⟩
  · obtain ⟨h0, h1, h2⟩ := ext_packSensor (smField 9 s.sT0) (smField 9 s.sT1) (smField 9 s.sT2)
    refine ⟨_, _, rfl, exec_dec_frameOf (frame_setFrame s _), ?_⟩
    simp only [unpackFrame_sensor, State.unpackSensor, h0, h1, h2]
    exact ⟨(smValue_smField_clamp _).2, (smValue_smField_clamp _).2, (smValue_smField_clamp _).2, rfl⟩

/-- Settles O52: the save sequence folds the odometer, which keeps the total, and the boot sequence restores all that
the distances depend on. -/
theorem saveThenBootReproducesEveryDistance : Obligations.SaveThenBootReproducesEveryDistance := by
  unfold Obligations.SaveThenBootReproducesEveryDistance
  intro s hppr hmmpr
  let f := s.beginCommand.foldOdometer
  let t := f.setHost [] (savedRegs.map f.readReg)
  have hboot := run_bootProgramOf t f
  obtain ⟨hq, htotal, hp, hm, h0, h1, h2, hC, hR⟩ := rebooted_restores t (f := f) rfl hppr hmmpr
  generalize t.rebooted f = b at *
  obtain ⟨hd0, hd1, hd2, -⟩ := recomputeDist_congr (s := s.beginCommand) (t := b.beginCommand)
    (htotal.trans (foldOdometer_total s.beginCommand)) hp hm h0 h1 h2
  refine ⟨t, _, b.beginCommand.recomputeDist, f.odoBase, f.trip0, f.trip1, f.trip2, lo32 f.etotC, hi32 f.etotC,
    lo32 f.etotR, hi32 f.etotR, rfl, run_saveProgram s, rfl, rfl, ?_, hd0, hd1, hd2, hC, hR, hq⟩
  rw [hi32_append_lo32, hi32_append_lo32]
  exact hboot

/-- Settles O57: the delta commands subtract modulo 8192 and 2^32 (O41, O42). -/
theorem deltasRecoverShortGapsAndAlias : Obligations.DeltasRecoverShortGapsAndAlias := by
  unfold Obligations.DeltasRecoverShortGapsAndAlias
  refine ⟨fun s a gap ha hb => ?_, fun s a gap ha hb => ?_⟩
  · obtain ⟨-, hdelta⟩ := delta13SubtractsModulo8192
    obtain ⟨t, ht, hresult, hframe⟩ := hdelta s
    exact ⟨t, ht, by omega, congrArg State.status hframe⟩
  · obtain ⟨-, hdelta⟩ := delta32SubtractsModulo2Pow32
    obtain ⟨t, ht, hresult, hframe⟩ := hdelta s
    exact ⟨t, ht, by omega, congrArg State.status hframe⟩

/-- Settles O1: each word is the encoding of its command. -/
theorem commandWordsDecode : Obligations.CommandWordsDecode := by
  unfold Obligations.CommandWordsDecode
  refine ⟨?_, ?_, ?_, ?_, ?_, ?_, ?_, ?_, ?_, ?_, ?_, ?_, ?_, ?_, ?_, ?_⟩ <;> exact decode_of_encode rfl rfl

/-- Settles O6, by `runCommand_ok`. -/
theorem stepRunsDecodedCommand : Obligations.StepRunsDecodedCommand := by
  unfold Obligations.StepRunsDecodedCommand
  intro s w i rest hp hd
  rw [step_cmd hp, runCommand_ok hd]
  rfl

/-- Settles O22, by the check of the access. -/
theorem undefinedAccessesAreRefused : Obligations.UndefinedAccessesAreRefused := by
  unfold Obligations.UndefinedAccessesAreRefused
  intro s off v rest
  have refused {width : AccessWidth} {r : Refusal} (h : checkAccess width off = some r) :
      (s.pending = .read width off :: rest → step s = .refused r) ∧
        (s.pending = .write width off v :: rest → step s = .refused r) := by
    obtain ⟨hread, hwrite⟩ := hostEvent_refused h v (s.setPending rest)
    exact ⟨fun hp => (step_cons hp).trans hread, fun hp => (step_cons hp).trans hwrite⟩
  exact ⟨fun width hw => refused (checkAccess_subWord hw off), fun h => refused (checkAccess_misaligned h)⟩

/-- Settles O56: neither command writes a register the other reads or writes, but for their own STATUS bits. -/
theorem motionAndElectricSamplesCommute : Obligations.MotionAndElectricSamplesCommute := by
  unfold Obligations.MotionAndElectricSamplesCommute
  exact fun s => ⟨_, _, _, rfl, rfl, rfl, rfl⟩

/-- Settles O58: State.reset is what a reset leaves of itself. -/
theorem invariantAtReset : Obligations.InvariantAtReset := by
  unfold Obligations.InvariantAtReset
  exact resetBlock_inv State.reset

/-- Settles O60, by `step_write`. -/
theorem stepPerformsTheAlignedWrite : Obligations.StepPerformsTheAlignedWrite := by
  unfold Obligations.StepPerformsTheAlignedWrite
  exact fun s off v rest hp h => step_write hp h

end Sys2Proof.Machine
